-- ==== Sys2Proof/Word.lean ====
section
/-! DEFINITION. The word and byte types of the machine (00_scope.md R8, R13). -/

namespace Sys2Proof

/-- A register, a memory word or an address: an unsigned 16-bit value (R13). -/
abbrev Word := BitVec 16

/-- A memory byte, or the packed PSW: an unsigned 8-bit value (R13, R30). -/
abbrev Byte := BitVec 8

end Sys2Proof
end

