-- ==== Sys2Proof/Syntax.lean ====
section
/-! DEFINITION. The instructions: one constructor per row of spec/opcode_table.json. An instruction is its opcode word;
the extra words belong to the operands and are read from memory when the operand is resolved (30_encoding.md R60, R61). -/

namespace Sys2Proof

/-- The eight addressing modes, 0 to 7 in this order (40_addressing_modes.md R94 to R103). -/
inductive Mode where
  | register
  | deferred
  | autoInc
  | autoIncDeferred
  | autoDec
  | autoDecDeferred
  | indexed
  | indexedDeferred
  deriving DecidableEq, Repr

/-- A register number, 0 to 7; 7 is the program counter (10_state.md R20, R21). -/
abbrev RegNum := Fin 8

/-- A mode and register field pair. All 64 pairs are encodable (30_encoding.md R66). -/
structure Operand where
  mode : Mode
  reg : RegNum
  deriving DecidableEq, Repr

/-- The operand size: word or byte (00_scope.md R13). -/
inductive Size where
  | word
  | byte
  deriving DecidableEq, Repr

/-- The 36 instructions of 00_scope.md R3, and the halt sentinel of 44_execution_loop.md R216. -/
inductive Instr where
  -- two-operand, 41_two_operand.md
  | mov (src dst : Operand)
  | cmp (src dst : Operand)
  | bit (src dst : Operand)
  | bic (src dst : Operand)
  | bis (src dst : Operand)
  | add (src dst : Operand)
  | movb (src dst : Operand)
  | cmpb (src dst : Operand)
  | bitb (src dst : Operand)
  | bicb (src dst : Operand)
  | bisb (src dst : Operand)
  | sub (src dst : Operand)
  -- one-operand, 42_one_operand.md
  | clr (dst : Operand)
  | com (dst : Operand)
  | inc (dst : Operand)
  | dec (dst : Operand)
  | neg (dst : Operand)
  | tst (src : Operand)
  | asr (dst : Operand)
  | asl (dst : Operand)
  | clrb (dst : Operand)
  | comb (dst : Operand)
  | incb (dst : Operand)
  | decb (dst : Operand)
  | negb (dst : Operand)
  | tstb (src : Operand)
  | asrb (dst : Operand)
  | aslb (dst : Operand)
  -- status moves, 42_one_operand.md R167, R168
  | mtps (src : Operand)
  | mfps (dst : Operand)
  -- branches, 43_branch_jump.md; disp is in words
  | br (disp : Int)
  | bne (disp : Int)
  | beq (disp : Int)
  | bpl (disp : Int)
  | bmi (disp : Int)
  -- jump, 43_branch_jump.md R197
  | jmp (dst : Operand)
  -- the halt sentinel, 44_execution_loop.md R216
  | halt
  deriving DecidableEq, Repr

end Sys2Proof
end

