-- ==== Sys2Proof/WellFormed.lean ====
section
/-! DEFINITION. Well-formed instructions: those the encoding can express. Modes and registers are bounded by their types;
the displacement of a branch is the one field with a range to check. -/

namespace Sys2Proof

/-- A branch displacement is -128 to +127 words (30_encoding.md R74). -/
abbrev dispInRange (disp : Int) : Prop := -128 ≤ disp ∧ disp ≤ 127

/-- The instruction has an encoding (30_encoding.md R74, R79). -/
def Instr.wellFormed : Instr → Bool
  | .br disp | .bne disp | .beq disp | .bpl disp | .bmi disp => decide (dispInRange disp)
  | .mov _ _ | .cmp _ _ | .bit _ _ | .bic _ _ | .bis _ _ | .add _ _ | .movb _ _ | .cmpb _ _ | .bitb _ _ | .bicb _ _
  | .bisb _ _ | .sub _ _ | .clr _ | .com _ | .inc _ | .dec _ | .neg _ | .tst _ | .asr _ | .asl _ | .clrb _ | .comb _
  | .incb _ | .decb _ | .negb _ | .tstb _ | .asrb _ | .aslb _ | .mtps _ | .mfps _ | .jmp _ | .halt => true

end Sys2Proof
end

