-- ==== Sys2Proof/Decode.lean ====
section
/-! DEFINITION. The decoder of 30_encoding.md R67, total on every word and every list of bytes, and after it the encoder
of R79, from the same tables (R68 to R73). -/

namespace Sys2Proof

/-- Why a decode is refused. `unknown`: the word is an unknown instruction (R75); the loop turns it into a DecodeFault.
`tooShort`: fewer than two bytes are there to read; the loop never meets this, it fetches whole words. -/
inductive DecodeError where
  | unknown (word : Word)
  | tooShort
  deriving DecidableEq, Repr

/-! ### Fields -/

/-- The field `W[hi:lo]` as an unsigned number (00_scope.md R12). -/
def field (W : Word) (hi lo : Nat) : Nat := W.toNat / 2 ^ lo % 2 ^ (hi + 1 - lo)

/-- The mode a 3-bit mode field selects (R66). -/
def modeOfCode : Nat → Mode
  | 0 => .register
  | 1 => .deferred
  | 2 => .autoInc
  | 3 => .autoIncDeferred
  | 4 => .autoDec
  | 5 => .autoDecDeferred
  | 6 => .indexed
  | _ => .indexedDeferred

/-- The register a 3-bit register field names (R66). -/
def regOfCode (n : Nat) : RegNum := ⟨n % 8, Nat.mod_lt _ (by decide)⟩

/-- The mode and register pair whose register field begins at bit `lo` (R62, R63, R65). -/
def operandAt (W : Word) (lo : Nat) : Operand :=
  ⟨modeOfCode (field W (lo + 5) (lo + 3)), regOfCode (field W (lo + 2) lo)⟩

/-- `sext_8` (R13, R74): an 8-bit number read as two's complement. -/
def signExtend8 (n : Nat) : Int := if 0x80 ≤ n then (n : Int) - 0x100 else n

/-! ### The opcode map -/

/-- TWO_OP (R68), by bits 15-12. -/
def twoOperand (opcode : Nat) (src dst : Operand) : Option Instr :=
  match opcode with
  | 0b0001 => some (.mov src dst)
  | 0b0010 => some (.cmp src dst)
  | 0b0011 => some (.bit src dst)
  | 0b0100 => some (.bic src dst)
  | 0b0101 => some (.bis src dst)
  | 0b0110 => some (.add src dst)
  | 0b1001 => some (.movb src dst)
  | 0b1010 => some (.cmpb src dst)
  | 0b1011 => some (.bitb src dst)
  | 0b1100 => some (.bicb src dst)
  | 0b1101 => some (.bisb src dst)
  | 0b1110 => some (.sub src dst)
  | _ => none

/-- ONE_OP (R69, R70, R71), by the size bit and op9. -/
def oneOperand (sizeBit op9 : Nat) (o : Operand) : Option Instr :=
  match sizeBit, op9 with
  | 0, 0o050 => some (.clr o)
  | 0, 0o051 => some (.com o)
  | 0, 0o052 => some (.inc o)
  | 0, 0o053 => some (.dec o)
  | 0, 0o054 => some (.neg o)
  | 0, 0o057 => some (.tst o)
  | 0, 0o062 => some (.asr o)
  | 0, 0o063 => some (.asl o)
  | 1, 0o050 => some (.clrb o)
  | 1, 0o051 => some (.comb o)
  | 1, 0o052 => some (.incb o)
  | 1, 0o053 => some (.decb o)
  | 1, 0o054 => some (.negb o)
  | 1, 0o057 => some (.tstb o)
  | 1, 0o062 => some (.asrb o)
  | 1, 0o063 => some (.aslb o)
  | 1, 0o064 => some (.mtps o)
  | 1, 0o067 => some (.mfps o)
  | _, _ => none

/-- The branch and JMP windows (R72, R73), on the full value of the word. -/
def branchOrJump (W : Word) : Option Instr :=
  let n := W.toNat
  let disp := signExtend8 (field W 7 0)
  if 0o000400 ≤ n ∧ n ≤ 0o000777 then some (.br disp)
  else if 0o001000 ≤ n ∧ n ≤ 0o001377 then some (.bne disp)
  else if 0o001400 ≤ n ∧ n ≤ 0o001777 then some (.beq disp)
  else if 0o100000 ≤ n ∧ n ≤ 0o100377 then some (.bpl disp)
  else if 0o100400 ≤ n ∧ n ≤ 0o100777 then some (.bmi disp)
  else if 0o000100 ≤ n ∧ n ≤ 0o000177 then some (.jmp (operandAt W 0))
  else none

/-- Read one opcode word: the halt sentinel, or the first of the three interpretations of R67 that matches. The loop
recognises the sentinel before decoding (R61, R216); that `halt` is also what the decoder answers for the word 0 changes
nothing it does (log 18). -/
def decodeWord (W : Word) : Except DecodeError Instr :=
  if W = 0 then .ok .halt
  else
    match twoOperand (field W 15 12) (operandAt W 6) (operandAt W 0) with
    | some i => .ok i
    | none =>
      match oneOperand (field W 15 15) (field W 14 6) (operandAt W 0) with
      | some i => .ok i
      | none =>
        match branchOrJump W with
        | some i => .ok i
        | none => .error (.unknown W)

/-- The little-endian word of two bytes, the one at the lower address first (20_memory.md R42, R43). -/
def wordOfBytes (low high : Byte) : Word := high ++ low

/-- Bits 7..0 of a word, the byte at its even address (R42). -/
def lowByte (w : Word) : Byte := w.setWidth 8

/-- Bits 15..8 of a word, the byte at the odd address after it (R42). -/
def highByte (w : Word) : Byte := (w >>> 8).setWidth 8

/-- Decode the instruction at the front of a list of bytes, and the bytes after its opcode word. -/
def decode : List Byte → Except DecodeError (Instr × List Byte)
  | low :: high :: rest =>
    match decodeWord (wordOfBytes low high) with
    | .ok i => .ok (i, rest)
    | .error e => .error e
  | _ => .error .tooShort

/-! ### Encoding (R79) -/

/-- The 3-bit code of a mode. -/
def Mode.code : Mode → Nat
  | .register => 0
  | .deferred => 1
  | .autoInc => 2
  | .autoIncDeferred => 3
  | .autoDec => 4
  | .autoDecDeferred => 5
  | .indexed => 6
  | .indexedDeferred => 7

/-- The six bits `(m << 3) | r`. -/
def Operand.code (o : Operand) : Nat := o.mode.code * 8 + o.reg.val

/-- `W = (opcode << 12) | (sm << 9) | (sr << 6) | (dm << 3) | dr`. -/
def encodeTwo (opcode : Nat) (src dst : Operand) : Word :=
  BitVec.ofNat 16 (opcode * 0o10000 + src.code * 0o100 + dst.code)

/-- `W = (B << 15) | (op9 << 6) | (m << 3) | r`. -/
def encodeOne (sizeBit op9 : Nat) (o : Operand) : Word :=
  BitVec.ofNat 16 (sizeBit * 0o100000 + op9 * 0o100 + o.code)

/-- `W = (code << 8) | (disp & 0xFF)`. -/
def encodeBranch (code : Nat) (disp : Int) : Word :=
  BitVec.ofNat 16 (code * 0x100 + (disp % 0x100).toNat)

/-- The opcode word of an instruction. Its extra words, if it has any, are data that follow in memory. -/
def encode : Instr → Word
  | .mov src dst => encodeTwo 0b0001 src dst
  | .cmp src dst => encodeTwo 0b0010 src dst
  | .bit src dst => encodeTwo 0b0011 src dst
  | .bic src dst => encodeTwo 0b0100 src dst
  | .bis src dst => encodeTwo 0b0101 src dst
  | .add src dst => encodeTwo 0b0110 src dst
  | .movb src dst => encodeTwo 0b1001 src dst
  | .cmpb src dst => encodeTwo 0b1010 src dst
  | .bitb src dst => encodeTwo 0b1011 src dst
  | .bicb src dst => encodeTwo 0b1100 src dst
  | .bisb src dst => encodeTwo 0b1101 src dst
  | .sub src dst => encodeTwo 0b1110 src dst
  | .clr dst => encodeOne 0 0o050 dst
  | .com dst => encodeOne 0 0o051 dst
  | .inc dst => encodeOne 0 0o052 dst
  | .dec dst => encodeOne 0 0o053 dst
  | .neg dst => encodeOne 0 0o054 dst
  | .tst src => encodeOne 0 0o057 src
  | .asr dst => encodeOne 0 0o062 dst
  | .asl dst => encodeOne 0 0o063 dst
  | .clrb dst => encodeOne 1 0o050 dst
  | .comb dst => encodeOne 1 0o051 dst
  | .incb dst => encodeOne 1 0o052 dst
  | .decb dst => encodeOne 1 0o053 dst
  | .negb dst => encodeOne 1 0o054 dst
  | .tstb src => encodeOne 1 0o057 src
  | .asrb dst => encodeOne 1 0o062 dst
  | .aslb dst => encodeOne 1 0o063 dst
  | .mtps src => encodeOne 1 0o064 src
  | .mfps dst => encodeOne 1 0o067 dst
  | .br disp => encodeBranch 0x01 disp
  | .bne disp => encodeBranch 0x02 disp
  | .beq disp => encodeBranch 0x03 disp
  | .bpl disp => encodeBranch 0x80 disp
  | .bmi disp => encodeBranch 0x81 disp
  | .jmp dst => encodeOne 0 0o001 dst
  | .halt => 0

/-! ### The table's words -/

/-- The first three words of an instruction whose bits are `w`, numbered as spec/opcode_table.json numbers them; every
bit from `nbits` up is 0. Three words are the longest instruction (R60). -/
def tableWords (nbits w : Nat) : List Word :=
  let bits := w % 2 ^ nbits
  [BitVec.ofNat 16 bits, BitVec.ofNat 16 (bits / 2 ^ 16), BitVec.ofNat 16 (bits / 2 ^ 32)]

/-- The bytes of those words as memory holds them. -/
def tableBytes (nbits w : Nat) : List Byte := (tableWords nbits w).flatMap fun v => [lowByte v, highByte v]

/-- The instruction the decoder reads from a row of the opcode table. -/
def decodeTableWord (nbits w : Nat) : Option Instr :=
  match decode (tableBytes nbits w) with
  | .ok (i, _) => some i
  | .error _ => none

end Sys2Proof
end

