-- ==== Sys2Proof/Config.lean ====
section
/-! DEFINITION. The open parameters of 00_scope.md R9, which "a model takes as arguments". They stand in
`Machine.State.config`, which no step writes, so that a statement about every state holds for every value of them. -/

namespace Sys2Proof

/-- UNSTATED_V: how V is written by the instructions whose V cell the source leaves blank (92_eei_decisions.md D5).
`unchanged`: V keeps its value. `computed`: CMP and CMPB set the signed overflow of dst - src, BIC, BIS and COM clear
V, ASR and ASL set N xor C. -/
inductive UnstatedV where
  | unchanged
  | computed
  deriving DecidableEq, Repr

/-- MFPS_REG_POLICY: what MFPS does to bits 15-8 of a register destination (92_eei_decisions.md D6). -/
inductive MfpsRegPolicy where
  | preserveHigh
  | zeroExtend
  deriving DecidableEq, Repr

/-- The open parameters together. `stepLimit` is STEP_LIMIT, the step ceiling (D14). -/
structure Config where
  stepLimit : Nat
  unstatedV : UnstatedV
  mfpsRegPolicy : MfpsRegPolicy
  deriving DecidableEq, Repr

end Sys2Proof
end

