-- ==== Sys2Proof/Machine/Launch.lean ====
section
/-! DEFINITION. The values the model names where 10_state.md R39 says "launch state" and 00_scope.md R9 leaves a parameter
open. They stand in a file of their own so that they can be mended; no statement rests on them. -/

namespace Sys2Proof.Machine

/-- What a byte of memory that nothing has written reads as. DESIGN CHOICE (log 3, unsafe): 70_reset_and_hazards.md R302
allows the all-zero launch memory and says it is "not a claim about the hardware". -/
def launchByte : Byte := 0

/-- What a register holds at session start. DESIGN CHOICE (log 1, unsafe), as R302 allows. -/
def launchRegister : Word := 0

/-- What a flag holds at session start. DESIGN CHOICE (log 2, unsafe), as R302 allows. -/
def launchFlag : Bool := false

/-- The open parameters at session start. STEP_LIMIT is a DESIGN CHOICE (log 5, unsafe); the other two are the defaults
that R9 names (log 6 and 7). -/
def launchConfig : Config := ⟨1000, .unchanged, .preserveHigh⟩

end Sys2Proof.Machine
end

