-- ==== Sys2Proof/Machine/Memory.lean ====
section
/-! DEFINITION. Memory as plain data: a list of address and byte pairs in one canonical form, addresses strictly rising,
no entry equal to what an unlisted address reads as (10_state.md R33, 20_memory.md R40). -/

namespace Sys2Proof.Machine

/-- The 65536 bytes of R33; `(a, b)` says that `mem[a] = b`. -/
abbrev Memory := List Host.Cell

/-- The number of bytes in the address space (R33, R40). -/
def memorySize : Nat := 0x10000

/-- `mem[a]`. -/
def Memory.read : Memory → Nat → Byte
  | [], _ => launchByte
  | (k, b) :: rest, a => if k = a then b else Memory.read rest a

/-- Put a byte into its place in the rising order, over the entry for the same address if there is one. -/
def Memory.insert : Memory → Nat → Byte → Memory
  | [], a, b => [(a, b)]
  | (k, c) :: rest, a, b =>
    if a < k then (a, b) :: (k, c) :: rest
    else if a = k then (a, b) :: rest
    else (k, c) :: Memory.insert rest a b

/-- `mem[a] <- b`. Writing what an unlisted address reads as takes the entry out, so that equal memories are equal data. -/
def Memory.write (m : Memory) (a : Nat) (b : Byte) : Memory :=
  if b = launchByte then m.filter (fun c => c.1 ≠ a) else m.insert a b

/-- The canonical form. -/
def Memory.wf : Memory → Bool
  | [] => true
  | (k, b) :: rest => decide (k < memorySize) && decide (b ≠ launchByte) && rest.all (fun c => decide (k < c.1)) && Memory.wf rest

end Sys2Proof.Machine
end

