-- ==== Sys2Proof/Machine/State.lean ====
section
/-! DEFINITION. The state of the machine (10_state.md): the tuple (x, flags, mem, fsm, steps, faultLog, lastAccess), the open
parameters, and the console's two ends. `pcWritten` and the snapshot exist only inside one step (R35) and stand in
`Machine.Work`. -/

namespace Sys2Proof.Machine

/-- The register file: R0 to R7, R7 the program counter (R20, R21). -/
abbrev Regs := Vector Word 8

/-- The five flags, the one authoritative representation of the status (R29). -/
structure Flags where
  n : Bool
  z : Bool
  v : Bool
  c : Bool
  t : Bool
  deriving DecidableEq, Repr

/-- The two ways a memory access fails (20_memory.md R44, R45). -/
inductive AccessKind where
  | busFault
  | oddAddress
  deriving DecidableEq, Repr

/-- A failed access: which check failed, and the address it failed on (60_exceptions.md R271, R272). -/
structure AccessError where
  kind : AccessKind
  addr : Word
  deriving DecidableEq, Repr

/-- The faults an instruction can raise while it executes (60_exceptions.md R271 to R274). -/
inductive Trap where
  | access (e : AccessError)
  | invalidDestination (mode : Mode) (reg : RegNum)
  | decodeFault (word : Word)
  deriving DecidableEq, Repr

/-- An entry of the fault log, with the fields R279 gives each kind. -/
inductive LogEntry where
  | access (kind : AccessKind) (pc addr : Word)
  | invalidDestination (pc : Word) (mode : Mode) (reg : RegNum)
  | decodeFault (pc word : Word)
  | stepCeilingAbort (pc : Word)
  | fetchFault (pc : Word) (cause : AccessKind) (addr : Word)
  deriving DecidableEq, Repr

/-- The execution control FSM (44_execution_loop.md R210). -/
inductive Fsm where
  | idle
  | running
  deriving DecidableEq, Repr

/-- Why a run stopped (R210). -/
inductive StopReason where
  | halted
  | stepCeilingAbort
  | fetchFault
  deriving DecidableEq, Repr

/-- What a run returns (R221). -/
structure RunResult where
  stopReason : StopReason
  faultLog : List LogEntry
  steps : Nat
  deriving DecidableEq, Repr

/-- The most recent explicit read or write target of the console (10_state.md R36). -/
inductive LastAccess where
  | none
  | memory (addr : Word)
  | register (n : RegNum)
  deriving DecidableEq, Repr

/-- What a console command returns (45_console_host.md R255): a register or memory word, a memory byte, the packed PSW, a
run's result, nothing, the quit sentinel, or one of the two errors. Values, not text (log 10). -/
inductive Reply where
  | word (v : Word)
  | byte (v : Byte)
  | psw (v : Byte)
  | run (r : RunResult)
  | nothing
  | quit
  | busError
  | parseError
  deriving DecidableEq, Repr

/-- Whether the console session goes on; QUIT ends it (R250; log 9). -/
inductive Session where
  | active
  | ended
  deriving DecidableEq, Repr

/-- The machine. Plain data. -/
structure State where
  /-- x[0] to x[7] (R20). -/
  regs : Regs
  /-- N, Z, V, C and T (R29). -/
  flags : Flags
  /-- The 65536 bytes (R33). -/
  mem : Memory
  /-- Idle or Running (R34, R210). -/
  fsm : Fsm
  /-- Instructions executed in the current or last run (R34, R217). -/
  steps : Nat
  /-- Faults recorded in the current or last run, oldest first (R34, R279). -/
  faultLog : List LogEntry
  /-- The console's continuation state (R36). -/
  lastAccess : LastAccess
  /-- The open parameters (00_scope.md R9). The model's own field: no step writes it (log 5, 6, 7). -/
  config : Config
  /-- Console lines typed and not yet taken, oldest first. The model's own field (log 8). -/
  input : List (List Char)
  /-- Results the console has returned, oldest first. The model's own field (log 8). -/
  replies : List Reply
  /-- The model's own field (log 9). -/
  session : Session
  deriving DecidableEq, Repr

/-- Why `step` stops for good. No fault of the spec is here: those are recorded and the machine goes on
(44_execution_loop.md R219), or they end the run and the FSM goes Idle (R216 to R218). -/
inductive Fault where
  /-- Raised by `step` only, when the FSM is Idle and QUIT has ended the session (45_console_host.md R250). Safe: the spec
  gives no step after that (log 9). -/
  | sessionEnded
  deriving DecidableEq, Repr

/-- Why an instruction has no meaning. -/
inductive Refusal where
  /-- Raised by an arm of `exec` whose instruction has no meaning yet; there is none now. Safe. -/
  | notModelled (mnemonic : String)
  deriving DecidableEq, Repr

/-- The state at session start. Idle and `none` are the spec's values (R39); the run's two are those of the start of a run
(R39; log 4); registers, flags and memory are the all-zero launch state that 70_reset_and_hazards.md R302 allows a model
to take (log 1, 2, 3). -/
def State.reset : State where
  regs := Vector.replicate 8 launchRegister
  flags := ⟨launchFlag, launchFlag, launchFlag, launchFlag, launchFlag⟩
  mem := []
  fsm := .idle
  steps := 0
  faultLog := []
  lastAccess := .none
  config := launchConfig
  input := []
  replies := []
  session := .active

end Sys2Proof.Machine
end

