-- ==== Sys2Proof/Machine/Ops.lean ====
section
/-! DEFINITION. The shared operations over registers and memory, and the ends of a step: taking a fault, completing an
instruction, starting and stopping a run. -/

namespace Sys2Proof.Machine

/-! ### Registers -/

/-- `x[i]` (00_scope.md R14). -/
def Regs.get (x : Regs) (i : RegNum) : Word := x[i.val]

/-- `x[i] <- v`; a Word is already taken mod 2^16 (10_state.md R24). -/
def Regs.put (x : Regs) (i : RegNum) (v : Word) : Regs := x.set i.val v

/-- R7 is the program counter (R21, R26). -/
def pcReg : RegNum := 7

/-- The program counter of a state, x[7]. -/
def State.pc (s : State) : Word := s.regs.get pcReg

/-! ### Memory -/

/-- VALID_TOP (00_scope.md R8). -/
def validTop : Word := 0o157776

/-- The two checks of R44 and R45, the validity check first. -/
def checkAccess (a : Word) (sz : Size) : Except AccessError Unit :=
  if validTop < a then .error ⟨.busFault, a⟩
  else if sz = .word ∧ a.getLsbD 0 = true then .error ⟨.oddAddress, a⟩
  else .ok ()

/-- `mem[a] | (mem[a+1] << 8)` (R42). -/
def Memory.readWordAt (m : Memory) (a : Word) : Word := wordOfBytes (m.read a.toNat) (m.read (a.toNat + 1))

/-- `mem[a] <- v & 0xFF; mem[a+1] <- (v >> 8) & 0xFF` (R42, R47). -/
def Memory.writeWordAt (m : Memory) (a : Word) (v : Word) : Memory :=
  (m.write a.toNat (lowByte v)).write (a.toNat + 1) (highByte v)

/-- `MemRead(a, n)` (R46). A byte comes back as a 16-bit value with a zero high byte. -/
def memRead (m : Memory) (a : Word) (sz : Size) : Except AccessError Word :=
  match checkAccess a sz with
  | .error e => .error e
  | .ok () =>
    match sz with
    | .byte => .ok ((m.read a.toNat).setWidth 16)
    | .word => .ok (m.readWordAt a)

/-- `MemWrite(a, n, v)` (R47). -/
def memWrite (m : Memory) (a : Word) (sz : Size) (v : Word) : Except AccessError Memory :=
  match checkAccess a sz with
  | .error e => .error e
  | .ok () =>
    match sz with
    | .byte => .ok (m.write a.toNat (lowByte v))
    | .word => .ok (m.writeWordAt a v)

/-! ### Inside one instruction -/

/-- What an instruction works on: registers, flags and memory, with the bit `pcWritten` (10_state.md R35). The snapshot of
R35 is the state the instruction began with, which is kept aside unchanged. -/
structure Work where
  regs : Regs
  flags : Flags
  mem : Memory
  pcWritten : Bool
  deriving DecidableEq, Repr

/-- The start of an instruction: `pcWritten <- false` (44_execution_loop.md R213). -/
def Work.ofState (s : State) : Work := ⟨s.regs, s.flags, s.mem, false⟩

/-- `x[i] <- v` inside an instruction: any write to x[7], whatever the value, sets `pcWritten` (R214). -/
def Work.writeReg (w : Work) (i : RegNum) (v : Word) : Work :=
  { w with regs := w.regs.put i v, pcWritten := w.pcWritten || decide (i = pcReg) }

/-- A failed access inside an instruction is a fault of that instruction (R219). -/
def liftAccess {α : Type} : Except AccessError α → Except Trap α
  | .ok a => .ok a
  | .error e => .error (.access e)

/-- A read by an instruction. -/
def Work.load (w : Work) (a : Word) (sz : Size) : Except Trap Word := liftAccess (memRead w.mem a sz)

/-- A write by an instruction. -/
def Work.store (w : Work) (a : Word) (sz : Size) (v : Word) : Except Trap Work :=
  match memWrite w.mem a sz v with
  | .ok m => .ok { w with mem := m }
  | .error e => .error (.access e)

/-! ### The end of a step -/

/-- The log entry of a fault inside the instruction at `pc` (60_exceptions.md R279). -/
def Trap.logEntry (t : Trap) (pc : Word) : LogEntry :=
  match t with
  | .access e => .access e.kind pc e.addr
  | .invalidDestination mode reg => .invalidDestination pc mode reg
  | .decodeFault word => .decodeFault pc word

/-- Taking a fault raised inside an instruction (44_execution_loop.md R219, R220). `s` is the snapshot: its registers, flags
and memory are what the faulting instruction leaves, but for x[7], which goes on by ONE word. The fault is logged with pc.
The CORE has no trap entry and no trap return (60_exceptions.md R270, R283), so nothing is saved and no operation returns. -/
def takeFault (s : State) (t : Trap) : State :=
  { s with
    regs := s.regs.put pcReg (s.pc + 2)
    faultLog := s.faultLog ++ [t.logEntry s.pc] }

/-- The address after an instruction with `extra` extra words (R215). -/
def nextPc (pc : Word) (extra : Nat) : Word := pc + BitVec.ofNat 16 (2 + 2 * extra)

/-- An instruction that completed: its work becomes the state, and x[7] advances past the instruction unless the
instruction wrote x[7] (R213, R215). -/
def complete (s : State) (extra : Nat) (w : Work) : State :=
  { s with
    regs := if w.pcWritten then w.regs else w.regs.put pcReg (nextPc s.pc extra)
    flags := w.flags
    mem := w.mem }

/-- Run the body of an instruction from `s`: it completes with its count of extra words, or its fault is taken
(R213, parts 5 and 6). -/
def runInstr (body : Work → Except Trap (Nat × Work)) (s : State) : Host.Outcome State Fault Refusal :=
  match body (Work.ofState s) with
  | .ok (extra, w) => .next (complete s extra w)
  | .error t => .next (takeFault s t)

/-! ### Starting and stopping a run -/

/-- The entry of a run, `EXEC_AT(addr)` (R211). -/
def startRun (s : State) (addr : Word) : State :=
  { s with regs := s.regs.put pcReg addr, steps := 0, faultLog := [], fsm := .running }

/-- The end of a run: the FSM goes Idle, and the result is delivered (R210, R211, R221). -/
def stopRun (s : State) (reason : StopReason) : State :=
  { s with fsm := .idle, replies := s.replies ++ [.run ⟨reason, s.faultLog, s.steps⟩] }

end Sys2Proof.Machine
end

