-- ==== Sys2Proof/Machine/Operands.lean ====
section
/-! DEFINITION. `resolve` and `commit`, the two primitives every instruction uses on an operand (40_addressing_modes.md). -/

namespace Sys2Proof.Machine

/-- The write-back tag of a resolved operand (00_scope.md R18, 40_addressing_modes.md R106). `invalid` keeps the operand,
which is what InvalidDestination records. -/
inductive WriteBack where
  | discard
  | invalid (mode : Mode) (reg : RegNum)
  | writeRegister (r : RegNum)
  | writeMemoryWord (a : Word)
  | writeMemoryByte (a : Word)
  deriving DecidableEq, Repr

/-- The operand descriptor (R90). At byte size `value` is at most 0xFF. -/
structure Desc where
  value : Word
  wb : WriteBack
  extra : Nat
  ea : Option Word
  deriving DecidableEq, Repr

/-- `inc(s)` (R91). -/
def incStep (sz : Size) : Word :=
  match sz with
  | .word => 2
  | .byte => 1

/-- `WB_MEM(a)` (R94's preamble). -/
def memoryTag (sz : Size) (a : Word) : WriteBack :=
  match sz with
  | .word => .writeMemoryWord a
  | .byte => .writeMemoryByte a

/-- The low part of a register that an operand of a size sees (10_state.md R25, R94). -/
def sized (sz : Size) (v : Word) : Word :=
  match sz with
  | .word => v
  | .byte => v &&& 0xFF

/-- The base of modes 6 and 7: the register, or for R7 the address of the displacement word itself (R102). -/
def indexBase (r : RegNum) (p : Word) (w : Work) : Word :=
  if r = pcReg then p + 2 else w.regs.get r

/-- Mode 0 (R94). -/
def resolveRegister (sz : Size) (r : RegNum) (w : Work) : Except Trap (Desc × Work) :=
  .ok (⟨sized sz (w.regs.get r), .writeRegister r, 0, none⟩, w)

/-- Mode 1 (R95). -/
def resolveDeferred (sz : Size) (r : RegNum) (w : Work) : Except Trap (Desc × Work) := do
  let a := w.regs.get r
  let value ← w.load a sz
  .ok (⟨value, memoryTag sz a, 0, some a⟩, w)

/-- Mode 2, not R7 (R96). -/
def resolveAutoInc (sz : Size) (r : RegNum) (w : Work) : Except Trap (Desc × Work) := do
  let a := w.regs.get r
  let value ← w.load a sz
  .ok (⟨value, memoryTag sz a, 0, some a⟩, w.writeReg r (a + incStep sz))

/-- Mode 2 with R7: immediate (R97). -/
def resolveImmediate (sz : Size) (p : Word) (w : Work) : Except Trap (Desc × Work) := do
  let a := p + 2
  let value ← w.load a sz
  .ok (⟨value, .invalid .autoInc pcReg, 1, some a⟩, w)

/-- Mode 3, not R7 (R98). -/
def resolveAutoIncDeferred (sz : Size) (r : RegNum) (w : Work) : Except Trap (Desc × Work) := do
  let ptr := w.regs.get r
  let a ← w.load ptr .word
  let value ← w.load a sz
  .ok (⟨value, memoryTag sz a, 0, some a⟩, w.writeReg r (ptr + 2))

/-- Mode 3 with R7: absolute (R99). -/
def resolveAbsolute (sz : Size) (p : Word) (w : Work) : Except Trap (Desc × Work) := do
  let a ← w.load (p + 2) .word
  let value ← w.load a sz
  .ok (⟨value, .invalid .autoIncDeferred pcReg, 1, some a⟩, w)

/-- Mode 4 (R100). With R7 the decrement is a write of x[7] (R104). -/
def resolveAutoDec (sz : Size) (r : RegNum) (w : Work) : Except Trap (Desc × Work) := do
  let a := w.regs.get r - incStep sz
  let w := w.writeReg r a
  let value ← w.load a sz
  .ok (⟨value, memoryTag sz a, 0, some a⟩, w)

/-- Mode 5 (R101). With R7 the decrement is a write of x[7] (R104). -/
def resolveAutoDecDeferred (sz : Size) (r : RegNum) (w : Work) : Except Trap (Desc × Work) := do
  let ptr := w.regs.get r - 2
  let w := w.writeReg r ptr
  let a ← w.load ptr .word
  let value ← w.load a sz
  .ok (⟨value, memoryTag sz a, 0, some a⟩, w)

/-- Mode 6 (R102). -/
def resolveIndexed (sz : Size) (r : RegNum) (p : Word) (w : Work) : Except Trap (Desc × Work) := do
  let d ← w.load (p + 2) .word
  let a := indexBase r p w + d
  let value ← w.load a sz
  .ok (⟨value, memoryTag sz a, 1, some a⟩, w)

/-- Mode 7 (R103). -/
def resolveIndexedDeferred (sz : Size) (r : RegNum) (p : Word) (w : Work) : Except Trap (Desc × Work) := do
  let d ← w.load (p + 2) .word
  let a ← w.load (indexBase r p w + d) .word
  let value ← w.load a sz
  .ok (⟨value, memoryTag sz a, 1, some a⟩, w)

/-- The mode rules R94 to R103, before the tag is dropped for a source. -/
def resolveMode (sz : Size) (o : Operand) (p : Word) (w : Work) : Except Trap (Desc × Work) :=
  match o.mode with
  | .register => resolveRegister sz o.reg w
  | .deferred => resolveDeferred sz o.reg w
  | .autoInc => if o.reg = pcReg then resolveImmediate sz p w else resolveAutoInc sz o.reg w
  | .autoIncDeferred => if o.reg = pcReg then resolveAbsolute sz p w else resolveAutoIncDeferred sz o.reg w
  | .autoDec => resolveAutoDec sz o.reg w
  | .autoDecDeferred => resolveAutoDecDeferred sz o.reg w
  | .indexed => resolveIndexed sz o.reg p w
  | .indexedDeferred => resolveIndexedDeferred sz o.reg p w

/-- `resolve(s, mode, reg, p, asDest)` (R90): the tag is Discard when `asDest` is false. -/
def resolve (sz : Size) (o : Operand) (p : Word) (asDest : Bool) (w : Work) : Except Trap (Desc × Work) :=
  match resolveMode sz o p w with
  | .error t => .error t
  | .ok (d, w) => .ok (if asDest then d else { d with wb := .discard }, w)

/-- The extra words an operand takes (R105). -/
def extraWords (o : Operand) : Nat :=
  match o.mode with
  | .autoInc | .autoIncDeferred => if o.reg = pcReg then 1 else 0
  | .indexed | .indexedDeferred => 1
  | .register | .deferred | .autoDec | .autoDecDeferred => 0

/-- A write of a size to a register: a byte replaces the low byte only (10_state.md R25, R108). -/
def mergeRegister (sz : Size) (old v : Word) : Word :=
  match sz with
  | .word => v
  | .byte => (old &&& 0xFF00) ||| (v &&& 0xFF)

/-- `commit(s, wb, v)` (R106, R107). -/
def commit (sz : Size) (wb : WriteBack) (v : Word) (w : Work) : Except Trap Work :=
  match wb with
  | .discard => .ok w
  | .invalid mode reg => .error (.invalidDestination mode reg)
  | .writeRegister r => .ok (w.writeReg r (mergeRegister sz (w.regs.get r) v))
  | .writeMemoryWord a => w.store a .word v
  | .writeMemoryByte a => w.store a .byte v

/-- What an operation of the ALU answers: the result to commit, if the instruction writes one, and the flags after. -/
structure Alu where
  result : Option Word
  flags : Flags
  deriving DecidableEq, Repr

/-- Commit the result if there is one, then write the flags (41_two_operand.md R120, 42_one_operand.md R150). -/
def finishAlu (sz : Size) (wb : WriteBack) (out : Alu) (w : Work) : Except Trap Work :=
  match out.result with
  | none => .ok { w with flags := out.flags }
  | some r =>
    match commit sz wb r w with
    | .error t => .error t
    | .ok w => .ok { w with flags := out.flags }

/-- The address of the destination's resolve: the PC moved past the source's extra words (R110). -/
def destPc (pc : Word) (srcExtra : Nat) : Word := pc + BitVec.ofNat 16 (2 * srcExtra)

/-- `exec2` (41_two_operand.md R120): the operation is given the parameters, the flags, the source and the destination. -/
def exec2 (sz : Size) (op : Config → Flags → Word → Word → Alu) (src dst : Operand) (s : State) :
    Host.Outcome State Fault Refusal :=
  runInstr (fun w => do
    let (S, w) ← resolve sz src s.pc false w
    let (D, w) ← resolve sz dst (destPc s.pc S.extra) true w
    let w ← finishAlu sz D.wb (op s.config w.flags S.value D.value) w
    .ok (S.extra + D.extra, w)) s

/-- `exec1` (42_one_operand.md R150): `asDest` is false for TST and TSTB. -/
def exec1 (sz : Size) (asDest : Bool) (op : Config → Flags → Word → Alu) (o : Operand) (s : State) :
    Host.Outcome State Fault Refusal :=
  runInstr (fun w => do
    let (O, w) ← resolve sz o s.pc asDest w
    let w ← finishAlu sz O.wb (op s.config w.flags O.value) w
    .ok (O.extra, w)) s

end Sys2Proof.Machine
end

