-- ==== Sys2Proof/Machine/Flags.lean ====
section
/-! DEFINITION. The packed status byte (10_state.md R30), and the result and flag computation of every ALU instruction
(41_two_operand.md R121 to R134, 42_one_operand.md R151 to R170). Values are 16-bit; at byte size their high byte is 0. -/

namespace Sys2Proof.Machine

/-! ### The packed byte -/

/-- `pack() = C | V<<1 | Z<<2 | N<<3 | T<<4`; bits 5 to 7 read 0 (R30). -/
def Flags.pack (f : Flags) : Byte :=
  BitVec.ofNat 8 (f.c.toNat + 2 * f.v.toNat + 4 * f.z.toNat + 8 * f.n.toNat + 16 * f.t.toNat)

/-- `unpack(b)`; bits 5 to 7 are ignored (R30). -/
def Flags.unpack (b : Byte) : Flags where
  n := b.getLsbD 3
  z := b.getLsbD 2
  v := b.getLsbD 1
  c := b.getLsbD 0
  t := b.getLsbD 4

/-! ### Sizes -/

/-- `M(s)` (00_scope.md R13). -/
def sizeMask (sz : Size) : Word :=
  match sz with
  | .word => 0xFFFF
  | .byte => 0xFF

/-- `SB(s)` (R13). -/
def signBit (sz : Size) : Word :=
  match sz with
  | .word => 0x8000
  | .byte => 0x80

/-- `(r & SB(s)) != 0` (R15). -/
def isNegative (sz : Size) (r : Word) : Bool := decide (r &&& signBit sz ≠ 0)

/-- `(r & M(s)) == 0` (R15). -/
def isZero (sz : Size) (r : Word) : Bool := decide (r &&& sizeMask sz = 0)

/-- "N/Z from r at size s" (R15), the other flags as they are. -/
def Flags.setNZ (f : Flags) (sz : Size) (r : Word) : Flags := { f with n := isNegative sz r, z := isZero sz r }

/-- A V flag whose rule the source leaves blank (92_eei_decisions.md D5). -/
def unstatedV (cfg : Config) (old computed : Bool) : Bool :=
  match cfg.unstatedV with
  | .unchanged => old
  | .computed => computed

/-- `dst - src` at a size (41_two_operand.md R124, R125). -/
def difference (sz : Size) (src dst : Word) : Word := (dst - src) &&& sizeMask sz

/-- Signed overflow of dst - src with result r: src and dst differ in sign, and r differs from dst (R124, R133). -/
def subOverflow (sz : Size) (src dst r : Word) : Bool :=
  (isNegative sz src != isNegative sz dst) && (isNegative sz r != isNegative sz dst)

/-- Signed overflow of dst + src with result r (R123, R133). -/
def addOverflow (sz : Size) (src dst r : Word) : Bool :=
  (isNegative sz src == isNegative sz dst) && (isNegative sz r != isNegative sz dst)

/-! ### Two-operand operations -/

/-- MOV (R121). -/
def aluMov (_cfg : Config) (f : Flags) (src _dst : Word) : Alu :=
  ⟨some src, { f.setNZ .word src with v := false }⟩

/-- MOVB (R122): C is bit 7 of the source. -/
def aluMovb (_cfg : Config) (f : Flags) (src _dst : Word) : Alu :=
  let r := src &&& 0xFF
  ⟨some r, { f.setNZ .byte r with v := false, c := isNegative .byte src }⟩

/-- ADD (R123). -/
def aluAdd (_cfg : Config) (f : Flags) (src dst : Word) : Alu :=
  let r := dst + src
  ⟨some r, { f.setNZ .word r with c := decide (0xFFFF < dst.toNat + src.toNat), v := addOverflow .word src dst r }⟩

/-- SUB (R124). -/
def aluSub (_cfg : Config) (f : Flags) (src dst : Word) : Alu :=
  let r := difference .word src dst
  ⟨some r, { f.setNZ .word r with c := decide (dst < src), v := subOverflow .word src dst r }⟩

/-- CMP and CMPB (R125, R126): dst - src, nothing committed. -/
def aluCmp (sz : Size) (cfg : Config) (f : Flags) (src dst : Word) : Alu :=
  let t := difference sz src dst
  ⟨none, { f.setNZ sz t with c := decide (dst < src), v := unstatedV cfg f.v (subOverflow sz src dst t) }⟩

/-- BIT and BITB (R127, R128). -/
def aluBit (sz : Size) (_cfg : Config) (f : Flags) (src dst : Word) : Alu :=
  let t := (dst &&& src) &&& sizeMask sz
  ⟨none, { f.setNZ sz t with v := false }⟩

/-- BIC and BICB (R129, R130). -/
def aluBic (sz : Size) (cfg : Config) (f : Flags) (src dst : Word) : Alu :=
  let r := (dst &&& ~~~src) &&& sizeMask sz
  ⟨some r, { f.setNZ sz r with v := unstatedV cfg f.v false }⟩

/-- BIS and BISB (R131, R132). -/
def aluBis (sz : Size) (cfg : Config) (f : Flags) (src dst : Word) : Alu :=
  let r := (dst ||| src) &&& sizeMask sz
  ⟨some r, { f.setNZ sz r with v := unstatedV cfg f.v false }⟩

/-! ### One-operand operations -/

/-- CLR and CLRB (42_one_operand.md R151, R152). -/
def aluClr (_cfg : Config) (f : Flags) (_v : Word) : Alu :=
  ⟨some 0, { f with n := false, z := true, c := false, v := false }⟩

/-- COM and COMB (R153, R154): C is forced to 1. -/
def aluCom (sz : Size) (cfg : Config) (f : Flags) (v : Word) : Alu :=
  let r := ~~~v &&& sizeMask sz
  ⟨some r, { f.setNZ sz r with c := true, v := unstatedV cfg f.v false }⟩

/-- INC and INCB (R155, R156). -/
def aluInc (sz : Size) (_cfg : Config) (f : Flags) (v : Word) : Alu :=
  let r := (v + 1) &&& sizeMask sz
  ⟨some r, { f.setNZ sz r with c := decide (r = 0), v := decide (v = signBit sz - 1) }⟩

/-- DEC and DECB (R157, R158). -/
def aluDec (sz : Size) (_cfg : Config) (f : Flags) (v : Word) : Alu :=
  let r := (v - 1) &&& sizeMask sz
  ⟨some r, { f.setNZ sz r with c := decide (r = sizeMask sz), v := decide (v = signBit sz) }⟩

/-- NEG and NEGB (R159, R160). -/
def aluNeg (sz : Size) (_cfg : Config) (f : Flags) (v : Word) : Alu :=
  let r := (0 - v) &&& sizeMask sz
  ⟨some r, { f.setNZ sz r with c := decide (v ≠ 0), v := decide (v = signBit sz) }⟩

/-- TST and TSTB (R161, R162): nothing committed. -/
def aluTst (sz : Size) (_cfg : Config) (f : Flags) (v : Word) : Alu :=
  ⟨none, { f.setNZ sz v with c := false, v := false }⟩

/-- ASR and ASRB (R163, R164). -/
def aluAsr (sz : Size) (cfg : Config) (f : Flags) (v : Word) : Alu :=
  let r := (v >>> 1) ||| (v &&& signBit sz)
  let c := v.getLsbD 0
  ⟨some r, { f.setNZ sz r with c := c, v := unstatedV cfg f.v (isNegative sz r != c) }⟩

/-- ASL and ASLB (R165, R166). -/
def aluAsl (sz : Size) (cfg : Config) (f : Flags) (v : Word) : Alu :=
  let r := (v <<< 1) &&& sizeMask sz
  let c := isNegative sz v
  ⟨some r, { f.setNZ sz r with c := c, v := unstatedV cfg f.v (isNegative sz r != c) }⟩

end Sys2Proof.Machine
end

