-- ==== Sys2Proof/Machine/BranchJump.lean ====
section
/-! DEFINITION. The branches and JMP (43_branch_jump.md). -/

namespace Sys2Proof.Machine

/-- `(pc + 2 + 2*disp) mod 2^16` (R190). -/
def branchTarget (pc : Word) (disp : Int) : Word := BitVec.ofInt 16 (pc.toNat + 2 + 2 * disp)

/-- `execBranch` (R190): a taken branch writes x[7]; no flag is written and there are no extra words. -/
def execBranch (taken : Flags → Bool) (disp : Int) (s : State) : Host.Outcome State Fault Refusal :=
  runInstr (fun w =>
    if taken w.flags then .ok (0, w.writeReg pcReg (branchTarget s.pc disp)) else .ok (0, w)) s

/-- BR disp (R191): always. -/
def execBr (disp : Int) (s : State) : Host.Outcome State Fault Refusal := execBranch (fun _ => true) disp s

/-- BNE disp (R192): Z == 0. -/
def execBne (disp : Int) (s : State) : Host.Outcome State Fault Refusal := execBranch (fun f => !f.z) disp s

/-- BEQ disp (R193): Z == 1. -/
def execBeq (disp : Int) (s : State) : Host.Outcome State Fault Refusal := execBranch (fun f => f.z) disp s

/-- BPL disp (R194): N == 0. -/
def execBpl (disp : Int) (s : State) : Host.Outcome State Fault Refusal := execBranch (fun f => !f.n) disp s

/-- BMI disp (R195): N == 1. -/
def execBmi (disp : Int) (s : State) : Host.Outcome State Fault Refusal := execBranch (fun f => f.n) disp s

/-- JMP dst (R197). Mode 0 has no effective address and is refused before any resolve; every other mode's resolve gives
one, after the side effects of modes 2 to 5, and the write of x[7] is the last (R198). -/
def execJmp (dst : Operand) (s : State) : Host.Outcome State Fault Refusal :=
  runInstr (fun w =>
    if dst.mode = .register then .error (.invalidDestination dst.mode dst.reg)
    else do
      let (O, w) ← resolve .word dst s.pc false w
      match O.ea with
      | some a => .ok (O.extra, w.writeReg pcReg a)
      | none => .error (.invalidDestination dst.mode dst.reg)) s

end Sys2Proof.Machine
end

