-- ==== Sys2Proof/Machine/Halt.lean ====
section
/-! DEFINITION. The halt sentinel (44_execution_loop.md R216). -/

namespace Sys2Proof.Machine

/-- HALT (R216): the run stops with Halted; no register, flag or memory changes, x[7] stays at the halt word, and the halt
is not counted in `steps`. -/
def execHalt (s : State) : Host.Outcome State Fault Refusal := .next (stopRun s .halted)

end Sys2Proof.Machine
end

