-- ==== Sys2Proof/Machine/OneOperand.lean ====
section
/-! DEFINITION. The one-operand instructions (42_one_operand.md R150 to R166), each the template of R150 at its size with
its operation. TST and TSTB resolve their operand as a source; every other one as a destination. -/

namespace Sys2Proof.Machine

/-- CLR dst (R151). -/
def execClr (dst : Operand) (s : State) : Host.Outcome State Fault Refusal := exec1 .word true aluClr dst s

/-- COM dst (R153). -/
def execCom (dst : Operand) (s : State) : Host.Outcome State Fault Refusal := exec1 .word true (aluCom .word) dst s

/-- INC dst (R155). -/
def execInc (dst : Operand) (s : State) : Host.Outcome State Fault Refusal := exec1 .word true (aluInc .word) dst s

/-- DEC dst (R157). -/
def execDec (dst : Operand) (s : State) : Host.Outcome State Fault Refusal := exec1 .word true (aluDec .word) dst s

/-- NEG dst (R159). -/
def execNeg (dst : Operand) (s : State) : Host.Outcome State Fault Refusal := exec1 .word true (aluNeg .word) dst s

/-- TST src (R161). -/
def execTst (src : Operand) (s : State) : Host.Outcome State Fault Refusal := exec1 .word false (aluTst .word) src s

/-- ASR dst (R163). -/
def execAsr (dst : Operand) (s : State) : Host.Outcome State Fault Refusal := exec1 .word true (aluAsr .word) dst s

/-- ASL dst (R165). -/
def execAsl (dst : Operand) (s : State) : Host.Outcome State Fault Refusal := exec1 .word true (aluAsl .word) dst s

/-- CLRB dst (R152). -/
def execClrb (dst : Operand) (s : State) : Host.Outcome State Fault Refusal := exec1 .byte true aluClr dst s

/-- COMB dst (R154). -/
def execComb (dst : Operand) (s : State) : Host.Outcome State Fault Refusal := exec1 .byte true (aluCom .byte) dst s

/-- INCB dst (R156). -/
def execIncb (dst : Operand) (s : State) : Host.Outcome State Fault Refusal := exec1 .byte true (aluInc .byte) dst s

/-- DECB dst (R158). -/
def execDecb (dst : Operand) (s : State) : Host.Outcome State Fault Refusal := exec1 .byte true (aluDec .byte) dst s

/-- NEGB dst (R160). -/
def execNegb (dst : Operand) (s : State) : Host.Outcome State Fault Refusal := exec1 .byte true (aluNeg .byte) dst s

/-- TSTB src (R162). -/
def execTstb (src : Operand) (s : State) : Host.Outcome State Fault Refusal := exec1 .byte false (aluTst .byte) src s

/-- ASRB dst (R164). -/
def execAsrb (dst : Operand) (s : State) : Host.Outcome State Fault Refusal := exec1 .byte true (aluAsr .byte) dst s

/-- ASLB dst (R166). -/
def execAslb (dst : Operand) (s : State) : Host.Outcome State Fault Refusal := exec1 .byte true (aluAsl .byte) dst s

end Sys2Proof.Machine
end

