-- ==== Sys2Proof/Machine/Status.lean ====
section
/-! DEFINITION. The status moves (42_one_operand.md R167, R168). There is one privilege level: both run for every program
(60_exceptions.md R284). -/

namespace Sys2Proof.Machine

/-- The size MFPS commits at: a whole register under ZeroExtend, one byte in every other case (R167). -/
def mfpsSize (cfg : Config) (wb : WriteBack) : Size :=
  match cfg.mfpsRegPolicy, wb with
  | .zeroExtend, .writeRegister _ => .word
  | _, _ => .byte

/-- MFPS dst (R167): the packed byte to the operand; no flag is written. -/
def execMfps (dst : Operand) (s : State) : Host.Outcome State Fault Refusal :=
  runInstr (fun w => do
    let (O, w) ← resolve .byte dst s.pc true w
    let w ← commit (mfpsSize s.config O.wb) O.wb (w.flags.pack.setWidth 16) w
    .ok (O.extra, w)) s

/-- The flags MTPS sets: all five from the operand's byte (R168). -/
def aluMtps (_cfg : Config) (_f : Flags) (v : Word) : Alu := ⟨none, Flags.unpack (lowByte v)⟩

/-- MTPS src (R168): resolved as the family template says, never committed. -/
def execMtps (src : Operand) (s : State) : Host.Outcome State Fault Refusal := exec1 .byte true aluMtps src s

end Sys2Proof.Machine
end

