-- ==== Sys2Proof/Machine/TwoOperand.lean ====
section
/-! DEFINITION. The two-operand instructions (41_two_operand.md), each the template of R120 at its size with its operation. -/

namespace Sys2Proof.Machine

/-- MOV src, dst (R121). -/
def execMov (src dst : Operand) (s : State) : Host.Outcome State Fault Refusal := exec2 .word aluMov src dst s

/-- MOVB src, dst (R122). -/
def execMovb (src dst : Operand) (s : State) : Host.Outcome State Fault Refusal := exec2 .byte aluMovb src dst s

/-- ADD src, dst (R123). -/
def execAdd (src dst : Operand) (s : State) : Host.Outcome State Fault Refusal := exec2 .word aluAdd src dst s

/-- SUB src, dst (R124). -/
def execSub (src dst : Operand) (s : State) : Host.Outcome State Fault Refusal := exec2 .word aluSub src dst s

/-- CMP src, dst (R125). -/
def execCmp (src dst : Operand) (s : State) : Host.Outcome State Fault Refusal := exec2 .word (aluCmp .word) src dst s

/-- CMPB src, dst (R126). -/
def execCmpb (src dst : Operand) (s : State) : Host.Outcome State Fault Refusal := exec2 .byte (aluCmp .byte) src dst s

/-- BIT src, dst (R127). -/
def execBit (src dst : Operand) (s : State) : Host.Outcome State Fault Refusal := exec2 .word (aluBit .word) src dst s

/-- BITB src, dst (R128). -/
def execBitb (src dst : Operand) (s : State) : Host.Outcome State Fault Refusal := exec2 .byte (aluBit .byte) src dst s

/-- BIC src, dst (R129). -/
def execBic (src dst : Operand) (s : State) : Host.Outcome State Fault Refusal := exec2 .word (aluBic .word) src dst s

/-- BICB src, dst (R130). -/
def execBicb (src dst : Operand) (s : State) : Host.Outcome State Fault Refusal := exec2 .byte (aluBic .byte) src dst s

/-- BIS src, dst (R131). -/
def execBis (src dst : Operand) (s : State) : Host.Outcome State Fault Refusal := exec2 .word (aluBis .word) src dst s

/-- BISB src, dst (R132). -/
def execBisb (src dst : Operand) (s : State) : Host.Outcome State Fault Refusal := exec2 .byte (aluBis .byte) src dst s

end Sys2Proof.Machine
end

