-- ==== Sys2Proof/Machine/Dispatch.lean ====
section
/-! DEFINITION. One arm per instruction. -/

namespace Sys2Proof.Machine

/-- Execute one instruction whose opcode word stood at x[7] (44_execution_loop.md R213, part 5 and the advance of part 6). -/
def exec (i : Instr) (s : State) : Host.Outcome State Fault Refusal :=
  match i with
  | .mov src dst => Sys2Proof.Machine.execMov src dst s
  | .cmp src dst => Sys2Proof.Machine.execCmp src dst s
  | .bit src dst => Sys2Proof.Machine.execBit src dst s
  | .bic src dst => Sys2Proof.Machine.execBic src dst s
  | .bis src dst => Sys2Proof.Machine.execBis src dst s
  | .add src dst => Sys2Proof.Machine.execAdd src dst s
  | .movb src dst => Sys2Proof.Machine.execMovb src dst s
  | .cmpb src dst => Sys2Proof.Machine.execCmpb src dst s
  | .bitb src dst => Sys2Proof.Machine.execBitb src dst s
  | .bicb src dst => Sys2Proof.Machine.execBicb src dst s
  | .bisb src dst => Sys2Proof.Machine.execBisb src dst s
  | .sub src dst => Sys2Proof.Machine.execSub src dst s
  | .clr dst => Sys2Proof.Machine.execClr dst s
  | .com dst => Sys2Proof.Machine.execCom dst s
  | .inc dst => Sys2Proof.Machine.execInc dst s
  | .dec dst => Sys2Proof.Machine.execDec dst s
  | .neg dst => Sys2Proof.Machine.execNeg dst s
  | .tst src => Sys2Proof.Machine.execTst src s
  | .asr dst => Sys2Proof.Machine.execAsr dst s
  | .asl dst => Sys2Proof.Machine.execAsl dst s
  | .clrb dst => Sys2Proof.Machine.execClrb dst s
  | .comb dst => Sys2Proof.Machine.execComb dst s
  | .incb dst => Sys2Proof.Machine.execIncb dst s
  | .decb dst => Sys2Proof.Machine.execDecb dst s
  | .negb dst => Sys2Proof.Machine.execNegb dst s
  | .tstb src => Sys2Proof.Machine.execTstb src s
  | .asrb dst => Sys2Proof.Machine.execAsrb dst s
  | .aslb dst => Sys2Proof.Machine.execAslb dst s
  | .mtps src => Sys2Proof.Machine.execMtps src s
  | .mfps dst => Sys2Proof.Machine.execMfps dst s
  | .br disp => Sys2Proof.Machine.execBr disp s
  | .bne disp => Sys2Proof.Machine.execBne disp s
  | .beq disp => Sys2Proof.Machine.execBeq disp s
  | .bpl disp => Sys2Proof.Machine.execBpl disp s
  | .bmi disp => Sys2Proof.Machine.execBmi disp s
  | .jmp dst => Sys2Proof.Machine.execJmp dst s
  | .halt => Sys2Proof.Machine.execHalt s

end Sys2Proof.Machine
end

