-- ==== Sys2Proof/Machine/Loop.lean ====
section
/-! DEFINITION. The execution loop (44_execution_loop.md R210 to R224): one step while Running, and a whole run. -/

namespace Sys2Proof.Machine

/-- Fetch the opcode word at x[7] (R213, part 1). -/
def fetch (s : State) : Except AccessError Word := memRead s.mem s.pc .word

/-- The run stops because the opcode word could not be fetched (R218). -/
def stopFetchFault (s : State) (e : AccessError) : State :=
  stopRun { s with faultLog := s.faultLog ++ [.fetchFault s.pc e.kind e.addr] } .fetchFault

/-- The run stops at the step ceiling (R217). -/
def stopStepCeiling (s : State) : State :=
  stopRun { s with faultLog := s.faultLog ++ [.stepCeilingAbort s.pc] } .stepCeilingAbort

/-- Part 4 of R213: the step is counted before the instruction runs, and stays counted if it faults. -/
def countStep (s : State) : State := { s with steps := s.steps + 1 }

/-- One step of the loop, in the order of R213: fetch fault, halt sentinel, step ceiling, then decode and execute. -/
def runStep (s : State) : Host.Outcome State Fault Refusal :=
  match fetch s with
  | .error e => .next (stopFetchFault s e)
  | .ok W =>
    if W = 0 then exec .halt s
    else if s.steps = s.config.stepLimit then .next (stopStepCeiling s)
    else
      match decodeWord W with
      | .ok i => exec i (countStep s)
      | .error _ => .next (takeFault (countStep s) (.decodeFault W))

/-- At most `fuel` steps of the loop, ending when the FSM goes Idle. -/
def runLoop : Nat → State → State
  | 0, s => s
  | fuel + 1, s =>
    match s.fsm with
    | .idle => s
    | .running =>
      match runStep s with
      | .next t => runLoop fuel t
      | _ => s

/-- `run(addr)` (R211). A run makes at most STEP_LIMIT + 1 fetches (R222), so this fuel is enough. -/
def run (s : State) (addr : Word) : State := runLoop (s.config.stepLimit + 1) (startRun s addr)

/-- Where `step` will fetch from if a run starts at x[7]; address 0 where x[7] is no address a word can be fetched from. -/
def fetchAddress (s : State) : Word :=
  match checkAccess s.pc .word with
  | .ok () => s.pc
  | .error _ => 0

/-- Lay words out in memory from an address on. -/
def storeWords : Memory → Word → List Word → Memory
  | m, _, [] => m
  | m, a, v :: rest => storeWords (m.writeWordAt a v) (a + 2) rest

end Sys2Proof.Machine
end

