-- ==== Sys2Proof/Machine/Console.lean ====
section
/-! DEFINITION. The host interface and the console (45_console_host.md). -/

namespace Sys2Proof.Machine

/-! ### The CORE's interface (R240)

`run` is in Machine/Loop.lean. -/

/-- `validateAddress(a)` (00_scope.md R6, 20_memory.md R44). -/
def validateAddress (a : Word) : Bool := decide (a ≤ validTop)

/-- `getRegister(n)`. -/
def getRegister (s : State) (n : RegNum) : Word := s.regs.get n

/-- `setRegister(n, v)`, v taken mod 2^16. -/
def setRegister (s : State) (n : RegNum) (v : Nat) : State := { s with regs := s.regs.put n (BitVec.ofNat 16 v) }

/-- `readWord(a)` and `readByte(a)`, by size. -/
def hostRead (s : State) (a : Word) (sz : Size) : Except AccessError Word := memRead s.mem a sz

/-- `writeWord(a, v)` and `writeByte(a, v)`, by size; a refused write completes nothing. -/
def hostWrite (s : State) (a : Word) (sz : Size) (v : Nat) : Except AccessError State :=
  match memWrite s.mem a sz (BitVec.ofNat 16 v) with
  | .ok m => .ok { s with mem := m }
  | .error e => .error e

/-- `getFlags()`: the packed byte. -/
def getFlags (s : State) : Byte := s.flags.pack

/-- `setFlags(v)`: v mod 256 unpacked. -/
def setFlags (s : State) (v : Nat) : State := { s with flags := Flags.unpack (BitVec.ofNat 8 v) }

/-! ### Commands and their syntax (R241, R242) -/

/-- The console commands (R241). Numbers are as written, before any reduction, but for addresses, which are reduced mod
2^16 in the grammar itself. -/
inductive Command where
  | regRead (n : RegNum)
  | regWrite (n : RegNum) (v : Nat)
  | memRead (a : Word)
  | memWrite (a : Word) (v : Nat)
  | pswRead
  | pswWrite (v : Nat)
  | execAt (a : Word)
  | quit
  | continuation
  deriving DecidableEq, Repr

/-- The whitespace trimmed from the ends of a line. DESIGN CHOICE (log 11): R241 says "whitespace" and lists no characters. -/
def isTrimmed (c : Char) : Bool := c == ' ' || c == '\t' || c == '\n' || c == '\r'

/-- `ws` inside a line: space or tab (R241). -/
def isBlank (c : Char) : Bool := c == ' ' || c == '\t'

/-- An octal digit (R242). -/
def isOctal (c : Char) : Bool := decide ('0'.toNat ≤ c.toNat) && decide (c.toNat ≤ '7'.toNat)

/-- Leading octal digits as a number that continues `acc`, and what follows them. -/
def takeOctal : Nat → List Char → Nat × List Char
  | acc, [] => (acc, [])
  | acc, c :: cs => if isOctal c then takeOctal (acc * 8 + (c.toNat - '0'.toNat)) cs else (acc, c :: cs)

/-- A list of characters that is one numeral, `oct` of R241. -/
def numeral (cs : List Char) : Option Nat :=
  match cs, takeOctal 0 cs with
  | _ :: _, (n, []) => some n
  | _, _ => none

/-- What stands after the subject of a read or write: `ws* "/" ws*` and, for a write, a numeral. -/
def slashPart (cs : List Char) : Option (Option Nat) :=
  match cs.dropWhile isBlank with
  | '/' :: rest =>
    match rest.dropWhile isBlank with
    | [] => some none
    | ds => (numeral ds).map some
  | _ => none

/-- The forms that begin with an address (R241). -/
def parseAddressed (cs : List Char) : Option Command :=
  match cs with
  | [] => none
  | c :: _ =>
    if isOctal c then
      let (n, rest) := takeOctal 0 cs
      let a : Word := BitVec.ofNat 16 n
      if rest.dropWhile isBlank = ['G'] then some (.execAt a)
      else
        match slashPart rest with
        | some none => some (.memRead a)
        | some (some v) => some (.memWrite a v)
        | none => none
    else none

/-- The forms of R241 on a trimmed line whose letters are capitals. -/
def parseCommand (cs : List Char) : Option Command :=
  match cs with
  | [] => some .continuation
  | ['Q'] => some .quit
  | ['Q', 'U', 'I', 'T'] => some .quit
  | 'R' :: 'S' :: rest =>
    match slashPart rest with
    | some none => some .pswRead
    | some (some v) => some (.pswWrite v)
    | none => none
  | 'R' :: d :: rest =>
    if isOctal d then
      let n := regOfCode (d.toNat - '0'.toNat)
      match slashPart rest with
      | some none => some (.regRead n)
      | some (some v) => some (.regWrite n v)
      | none => none
    else none
  | _ => parseAddressed cs

/-- A line trimmed at both ends, its letters made capitals (R241). -/
def normalLine (line : List Char) : List Char :=
  (((line.dropWhile isTrimmed).reverse.dropWhile isTrimmed).reverse).map Char.toUpper

/-- One input line as a command, or none for a parse fault (R241, R254). -/
def parseLine (line : List Char) : Option Command := parseCommand (normalLine line)

/-! ### What the commands do -/

/-- A command returns its result. -/
def reply (s : State) (r : Reply) : State := { s with replies := s.replies ++ [r] }

/-- A word at an even address, a byte at an odd one (R245, R246). -/
def paritySize (a : Word) : Size := if a.getLsbD 0 then .byte else .word

/-- `REG_READ(n)` (R243). -/
def consoleRegRead (s : State) (n : RegNum) : State :=
  reply { s with lastAccess := .register n } (.word (getRegister s n))

/-- `REG_WRITE(n, v)` (R244). -/
def consoleRegWrite (s : State) (n : RegNum) (v : Nat) : State :=
  reply { setRegister s n v with lastAccess := .register n } .nothing

/-- `MEM_READ(a)` (R245). -/
def consoleMemRead (s : State) (a : Word) : State :=
  match hostRead s a (paritySize a) with
  | .error _ => reply s .busError
  | .ok v =>
    reply { s with lastAccess := .memory a }
      (match paritySize a with
       | .word => .word v
       | .byte => .byte (lowByte v))

/-- `MEM_WRITE(a, v)` (R246). -/
def consoleMemWrite (s : State) (a : Word) (v : Nat) : State :=
  match hostWrite s a (paritySize a) v with
  | .error _ => reply s .busError
  | .ok s => reply { s with lastAccess := .memory a } .nothing

/-- The address an empty line reads next (R251). -/
def continuationAddress (a : Word) : Word := if a.getLsbD 0 then a + 1 else a + 2

/-- `CONTINUE` (R251, R252, R253). -/
def consoleContinue (s : State) : State :=
  match s.lastAccess with
  | .none => reply s .nothing
  | .memory a => consoleMemRead s (continuationAddress a)
  | .register n => consoleRegRead s (n + 1)

/-- One command (R243 to R253). EXEC_AT starts a run; its result is returned when the run stops (R249). -/
def runCommand (s : State) (c : Command) : State :=
  match c with
  | .regRead n => consoleRegRead s n
  | .regWrite n v => consoleRegWrite s n v
  | .memRead a => consoleMemRead s a
  | .memWrite a v => consoleMemWrite s a v
  | .pswRead => reply s (.psw (getFlags s))
  | .pswWrite v => reply (setFlags s v) .nothing
  | .execAt a => startRun s a
  | .quit => reply { s with session := .ended } .quit
  | .continuation => consoleContinue s

/-- One input line: its command, or a parse error that changes nothing (R254). -/
def runLine (s : State) (line : List Char) : State :=
  match parseLine line with
  | some c => runCommand s c
  | none => reply s .parseError

/-- One step while Idle: the console takes its next line. With no line there, it waits and nothing changes (log 8); after
QUIT there is no session to step (log 9). -/
def consoleStep (s : State) : Host.Outcome State Fault Refusal :=
  match s.session with
  | .ended => .fault .sessionEnded
  | .active =>
    match s.input with
    | [] => .next s
    | line :: rest => .next (runLine { s with input := rest } line)

end Sys2Proof.Machine
end

