-- ==== Sys2Proof/Machine/Step.lean ====
section
/-! DEFINITION. One step of the whole machine: the loop while Running, the console while Idle (44_execution_loop.md R210). -/

namespace Sys2Proof.Machine

/-- One instruction while the FSM is Running, one console command while it is Idle. -/
def step (s : State) : Host.Outcome State Fault Refusal :=
  match s.fsm with
  | .running => runStep s
  | .idle => consoleStep s

/-- The instruction with bits `w` placed where `step` fetches next, and a run started there as EXEC_AT starts one
(44_execution_loop.md R211), so that the very next step runs it (log 17). The address is x[7], or 0 where no word can be
fetched from x[7]. -/
def State.withFetchWord (s : State) (nbits w : Nat) : State :=
  startRun { s with mem := storeWords s.mem (fetchAddress s) (tableWords nbits w) } (fetchAddress s)

end Sys2Proof.Machine
end

