-- ==== Sys2Proof/Safety.lean ====
section
/-! DEFINITION. The invariant of the machine, what counts as a run without faults, and the terms the statements about
instructions are written in. -/

namespace Sys2Proof.Machine

/-- The entry is one of the two that end a run (60_exceptions.md R277 to R279). -/
def LogEntry.endsRun : LogEntry → Bool
  | .stepCeilingAbort _ => true
  | .fetchFault _ _ _ => true
  | .access _ _ _ => false
  | .invalidDestination _ _ _ => false
  | .decodeFault _ _ => false

/-- What holds of every state a session reaches, and what every step keeps. -/
structure Inv (s : State) : Prop where
  /-- Memory is in its canonical form. -/
  memory : s.mem.wf = true
  /-- At most STEP_LIMIT instructions run (44_execution_loop.md R217). -/
  ceiling : s.steps ≤ s.config.stepLimit
  /-- Every fault but one that ends the run belongs to a counted step (R217, R219). -/
  counted : s.faultLog.length ≤ s.steps + 1
  /-- At most the last entry of the log ends the run (60_exceptions.md R279). -/
  lastEnds : ∀ e ∈ s.faultLog.dropLast, e.endsRun = false
  /-- While the run goes on no entry ends it, and every entry belongs to a counted step. -/
  running : s.fsm = .running → s.faultLog.length ≤ s.steps ∧ ∀ e ∈ s.faultLog, e.endsRun = false
  /-- QUIT is a console command, so the session ends only with the FSM Idle (R210, 45_console_host.md R250). -/
  session : s.session = .ended → s.fsm = .idle

/-- The run recorded no fault. -/
def faultFree (s : State) : Bool := s.faultLog.isEmpty

/-! ### Terms of the statements -/

/-- The one operand of an instruction resolves, from the state the instruction begins with. -/
def Resolved1 (sz : Size) (asDest : Bool) (o : Operand) (s : State) (O : Desc) (w : Work) : Prop :=
  resolve sz o s.pc asDest (Work.ofState s) = .ok (O, w)

/-- Both operands of a two-operand instruction resolve, the source first and the destination from the PC past the source's
extra words (40_addressing_modes.md R110). -/
def Resolved2 (sz : Size) (src dst : Operand) (s : State) (S D : Desc) (w : Work) : Prop :=
  ∃ w₁, resolve sz src s.pc false (Work.ofState s) = .ok (S, w₁) ∧
    resolve sz dst (s.pc + BitVec.ofNat 16 (2 * S.extra)) true w₁ = .ok (D, w)

/-- The operand can be written: it is not mode 2 or 3 with R7 (40_addressing_modes.md R107). -/
def Writable (o : Operand) : Prop := ¬(o.reg = 7 ∧ (o.mode = .autoInc ∨ o.mode = .autoIncDeferred))

/-- The addressing mode steps its register: modes 2 to 5. -/
def Steps (o : Operand) : Prop :=
  o.mode = .autoInc ∨ o.mode = .autoIncDeferred ∨ o.mode = .autoDec ∨ o.mode = .autoDecDeferred

/-- The sign bit at a size: bit 15 or bit 7 (00_scope.md R13). -/
def signAt (sz : Size) (r : Word) : Bool :=
  match sz with
  | .word => r.getLsbD 15
  | .byte => r.getLsbD 7

/-- What follows from a one-operand instruction's faults (42_one_operand.md R150): if its operand does not resolve, that
fault is taken; if it writes an operand that cannot be written, InvalidDestination is taken. -/
def OneOperandFaults (i : Instr) (sz : Size) (asDest writes : Bool) (o : Operand) (s : State) : Prop :=
  (∀ t, resolve sz o s.pc asDest (Work.ofState s) = .error t → exec i s = .next (takeFault s t)) ∧
    (writes = true → ∀ O w, Resolved1 sz asDest o s O w → ¬Writable o →
      exec i s = .next (takeFault s (.invalidDestination o.mode o.reg)))

/-- What follows from a two-operand instruction's faults (41_two_operand.md R120), the source's first. -/
def TwoOperandFaults (i : Instr) (sz : Size) (writes : Bool) (src dst : Operand) (s : State) : Prop :=
  (∀ t, resolve sz src s.pc false (Work.ofState s) = .error t → exec i s = .next (takeFault s t)) ∧
    (∀ S w₁ t, resolve sz src s.pc false (Work.ofState s) = .ok (S, w₁) →
      resolve sz dst (s.pc + BitVec.ofNat 16 (2 * S.extra)) true w₁ = .error t →
      exec i s = .next (takeFault s t)) ∧
    (writes = true → ∀ S D w, Resolved2 sz src dst s S D w → ¬Writable dst →
      exec i s = .next (takeFault s (.invalidDestination dst.mode dst.reg)))

/-- Nothing but registers, flags, memory and the fault log differs. -/
def SameOutsideCpu (s t : State) : Prop :=
  t.fsm = s.fsm ∧ t.steps = s.steps ∧ t.lastAccess = s.lastAccess ∧ t.config = s.config ∧ t.input = s.input ∧
    t.replies = s.replies ∧ t.session = s.session

/-- Every byte of memory reads as before, but for the bytes of an access of size `sz` at `a`. -/
def SameMemoryOutside (s t : State) (sz : Size) (a : Word) : Prop :=
  ∀ x : Nat, x ≠ a.toNat → (sz = .word → x ≠ a.toNat + 1) → t.mem.read x = s.mem.read x

/-- Every byte of memory reads as before. -/
def SameMemory (s t : State) : Prop := ∀ x : Nat, t.mem.read x = s.mem.read x

end Sys2Proof.Machine
end

