-- ==== Sys2Proof/Certificates/Slice0/Obligations.lean ====
section
/-! DEFINITION. The statements. Each docstring names the rules of spec/ it formalises. An instruction's statement says what
its faults do (OneOperandFaults, TwoOperandFaults) and, where its operands resolve, the next state: `commit` writes the
result, the flags are as written out, and `complete` advances x[7]. `resolve`, `commit`, `complete` and `takeFault` have
statements of their own. -/

open Sys2Proof Sys2Proof.Machine

/-! ### Encoding -/

/-- Decoding the encoding of a well-formed instruction gives it back, with every operand (30_encoding.md R67, R79). -/
def Obligations.DecodeOfEncode : Prop :=
  ∀ i : Instr, i.wellFormed = true → decodeWord (encode i) = .ok i

/-- A word that decodes is the encoding of what it decodes to, which is well-formed: every word has one meaning
(30_encoding.md R76, R77). -/
def Obligations.EncodeOfDecode : Prop :=
  ∀ (W : Word) (i : Instr), decodeWord W = .ok i → encode i = W ∧ i.wellFormed = true

/-- The words that do not decode are those 30_encoding.md R75 lists, and they are refused by name. The opcode values are
the spec's decisions D1 to D3. -/
def Obligations.UnknownWordsAreTheListedOnes : Prop :=
  ∀ W : Word,
    (∀ e, decodeWord W = .error e → e = .unknown W) ∧
    (decodeWord W = .error (.unknown W) ↔ W ≠ 0 ∧
      (field W 15 12 = 0b0111 ∨ field W 15 12 = 0b1111 ∨
        (field W 15 12 = 0b0000 ∧
          field W 14 6 ∉ [0o050, 0o051, 0o052, 0o053, 0o054, 0o057, 0o062, 0o063] ∧
          ¬(0o000400 ≤ W.toNat ∧ W.toNat ≤ 0o001777) ∧ ¬(0o000100 ≤ W.toNat ∧ W.toNat ≤ 0o000177)) ∨
        (field W 15 12 = 0b1000 ∧
          field W 14 6 ∉ [0o050, 0o051, 0o052, 0o053, 0o054, 0o057, 0o062, 0o063, 0o064, 0o067] ∧
          ¬(0o100000 ≤ W.toNat ∧ W.toNat ≤ 0o100777))))

/-- The branch and JMP windows (30_encoding.md R72, R73). -/
def Obligations.BranchAndJumpWindows : Prop :=
  ∀ W : Word,
    ((∃ d, decodeWord W = .ok (.br d)) ↔ 0o000400 ≤ W.toNat ∧ W.toNat ≤ 0o000777) ∧
    ((∃ d, decodeWord W = .ok (.bne d)) ↔ 0o001000 ≤ W.toNat ∧ W.toNat ≤ 0o001377) ∧
    ((∃ d, decodeWord W = .ok (.beq d)) ↔ 0o001400 ≤ W.toNat ∧ W.toNat ≤ 0o001777) ∧
    ((∃ d, decodeWord W = .ok (.bpl d)) ↔ 0o100000 ≤ W.toNat ∧ W.toNat ≤ 0o100377) ∧
    ((∃ d, decodeWord W = .ok (.bmi d)) ↔ 0o100400 ≤ W.toNat ∧ W.toNat ≤ 0o100777) ∧
    ((∃ o, decodeWord W = .ok (.jmp o)) ↔ 0o000100 ≤ W.toNat ∧ W.toNat ≤ 0o000177)

/-- One word of each family, written out from its encoding (30_encoding.md R62 to R65, R68, R69, R71 to R73). The MFPS word
is the spec's decision D3 (log 15). That the decoder answers the halt sentinel for the word 0, which R61 and
44_execution_loop.md R216 keep from the decoder, is the model's choice (log 18). -/
def Obligations.SampleWordsDecode : Prop :=
  decodeWord 0b1001_010_001_100_010#16 = .ok (.movb ⟨.autoInc, 1⟩ ⟨.autoDec, 2⟩) ∧
  decodeWord 0b0_000_101_000_000_011#16 = .ok (.clr ⟨.register, 3⟩) ∧
  decodeWord 0b1_000_110_111_001_001#16 = .ok (.mfps ⟨.deferred, 1⟩) ∧
  decodeWord 0b00000010_11111101#16 = .ok (.bne (-3)) ∧
  decodeWord 0b0000000001_110_111#16 = .ok (.jmp ⟨.indexed, 7⟩) ∧
  decodeWord 0#16 = .ok .halt

/-! ### Memory -/

/-- A valid access reads the bytes, a word the one at the even address as its low byte; an access above VALID_TOP is a
BusFault on its own address, whatever its size (20_memory.md R42, R44). -/
def Obligations.ReadsAreLittleEndianAndBounded : Prop :=
  ∀ (m : Memory) (a : Word),
    (0o157776#16 < a → ∀ (sz : Size) (v : Word),
      memRead m a sz = .error ⟨.busFault, a⟩ ∧ memWrite m a sz v = .error ⟨.busFault, a⟩) ∧
    (a ≤ 0o157776#16 → memRead m a .byte = .ok ((m.read a.toNat).setWidth 16)) ∧
    (a ≤ 0o157776#16 → a.getLsbD 0 = false →
      memRead m a .word = .ok ((m.read a.toNat).setWidth 16 ||| (m.read (a.toNat + 1)).setWidth 16 <<< 8))

/-- A word access at an odd valid address is OddAddress, and a byte access there is not. The spec's decision D10
(20_memory.md R45). -/
def Obligations.OddWordAccessFaults : Prop :=
  ∀ (m : Memory) (a v : Word), a ≤ 0o157776#16 → a.getLsbD 0 = true →
    memRead m a .word = .error ⟨.oddAddress, a⟩ ∧ memWrite m a .word v = .error ⟨.oddAddress, a⟩ ∧
    (∃ b, memRead m a .byte = .ok b) ∧ ∃ m', memWrite m a .byte v = .ok m'

/-- A write succeeds at a valid address, even for a word; it replaces its own bytes and no other, and reading it back gives
the value (20_memory.md R47, R53). -/
def Obligations.WriteReplacesItsBytesOnly : Prop :=
  ∀ (m : Memory) (a v : Word) (sz : Size), a ≤ 0o157776#16 → (sz = .word → a.getLsbD 0 = false) →
    ∃ m', memWrite m a sz v = .ok m' ∧
      memRead m' a sz = .ok (if sz = .word then v else v &&& 0xFF) ∧
      m'.read a.toNat = v.setWidth 8 ∧
      (sz = .word → m'.read (a.toNat + 1) = (v >>> 8).setWidth 8) ∧
      ∀ x, x ≠ a.toNat → (sz = .word → x ≠ a.toNat + 1) → m'.read x = m.read x

/-- No step of a run changes a byte from 0o160000 up, where every access faults (10_state.md R33, 20_memory.md R51). -/
def Obligations.BytesAboveValidTopNeverChange : Prop :=
  (∀ (i : Instr) (s t : State), exec i s = .next t → ∀ x, 0o160000 ≤ x → t.mem.read x = s.mem.read x) ∧
  ∀ s t : State, s.fsm = .running → step s = .next t → ∀ x, 0o160000 ≤ x → t.mem.read x = s.mem.read x

/-! ### Registers and operands -/

/-- A commit writes through its tag: nothing, one register or one memory operand; a byte written to a register replaces its
low byte, and a byte read of a register is its low byte (10_state.md R25, 40_addressing_modes.md R106). The bit pcWritten is
R214's. -/
def Obligations.CommitWritesThroughItsTag : Prop :=
  ∀ (sz : Size) (r : RegNum) (m : Mode) (a v p : Word) (asDest : Bool) (w : Work),
    commit sz .discard v w = .ok w ∧
    commit sz (.invalid m r) v w = .error (.invalidDestination m r) ∧
    commit sz (.writeRegister r) v w = .ok { w with
      regs := w.regs.put r (if sz = .word then v else (w.regs.get r &&& 0xFF00) ||| (v &&& 0xFF))
      pcWritten := w.pcWritten || decide (r = 7) } ∧
    (∀ x, memWrite w.mem a .word v = .ok x → commit sz (.writeMemoryWord a) v w = .ok { w with mem := x }) ∧
    (∀ e, memWrite w.mem a .word v = .error e → commit sz (.writeMemoryWord a) v w = .error (.access e)) ∧
    (∀ x, memWrite w.mem a .byte v = .ok x → commit sz (.writeMemoryByte a) v w = .ok { w with mem := x }) ∧
    (∀ e, memWrite w.mem a .byte v = .error e → commit sz (.writeMemoryByte a) v w = .error (.access e)) ∧
    ∃ d, resolve .byte ⟨.register, r⟩ p asDest w = .ok (d, w) ∧ d.value = w.regs.get r &&& 0xFF

/-- Modes 0 and 1. A destination's tag is the register, or the memory operand at the size; a source's is Discard
(40_addressing_modes.md R94, R95). -/
def Obligations.RegisterAndDeferredModes : Prop :=
  ∀ (sz : Size) (r : RegNum) (p : Word) (asDest : Bool) (w : Work),
    resolve sz ⟨.register, r⟩ p asDest w =
      .ok (⟨if sz = .word then w.regs.get r else w.regs.get r &&& 0xFF,
        if asDest then .writeRegister r else .discard, 0, none⟩, w) ∧
    ∀ a, a = w.regs.get r →
      (∀ v, memRead w.mem a sz = .ok v →
        resolve sz ⟨.deferred, r⟩ p asDest w =
          .ok (⟨v, if asDest then if sz = .word then .writeMemoryWord a else .writeMemoryByte a else .discard, 0, some a⟩,
            w)) ∧
      ∀ e, memRead w.mem a sz = .error e → resolve sz ⟨.deferred, r⟩ p asDest w = .error (.access e)

/-- Modes 2 and 3 but not with R7: the operand is read, then the register is stepped, by the operand's size in mode 2 and
by 2 in mode 3; R7 is not written. A read that fails is the resolve's fault, the pointer's before the operand's
(40_addressing_modes.md R96, R98, in the order of their pseudocode). -/
def Obligations.AutoIncrementModes : Prop :=
  ∀ (sz : Size) (r : RegNum) (p ptr : Word) (asDest : Bool) (w : Work), r ≠ 7 → ptr = w.regs.get r →
    ((∀ v, memRead w.mem ptr sz = .ok v →
        resolve sz ⟨.autoInc, r⟩ p asDest w =
          .ok (⟨v, if asDest then if sz = .word then .writeMemoryWord ptr else .writeMemoryByte ptr else .discard, 0,
              some ptr⟩,
            { w with regs := w.regs.put r (ptr + if sz = .word then 2 else 1) })) ∧
      ∀ e, memRead w.mem ptr sz = .error e → resolve sz ⟨.autoInc, r⟩ p asDest w = .error (.access e)) ∧
    (∀ e, memRead w.mem ptr .word = .error e → resolve sz ⟨.autoIncDeferred, r⟩ p asDest w = .error (.access e)) ∧
    ∀ a, memRead w.mem ptr .word = .ok a →
      (∀ v, memRead w.mem a sz = .ok v →
        resolve sz ⟨.autoIncDeferred, r⟩ p asDest w =
          .ok (⟨v, if asDest then if sz = .word then .writeMemoryWord a else .writeMemoryByte a else .discard, 0, some a⟩,
            { w with regs := w.regs.put r (ptr + 2) })) ∧
      ∀ e, memRead w.mem a sz = .error e → resolve sz ⟨.autoIncDeferred, r⟩ p asDest w = .error (.access e)

/-- Modes 2 and 3 with R7: immediate and absolute, one extra word, no register changed, and not a destination. A read that
fails is the resolve's fault, the extra word's before the operand's. That a byte immediate is the low byte of the stream
word, and that p + 2 is the immediate's address, are the spec's decision D17; the order of faults is its decision D29
(40_addressing_modes.md R97, R99, 60_exceptions.md R280). -/
def Obligations.ImmediateAndAbsoluteModes : Prop :=
  ∀ (sz : Size) (p : Word) (asDest : Bool) (w : Work),
    ((∀ v, memRead w.mem (p + 2) sz = .ok v →
        resolve sz ⟨.autoInc, 7⟩ p asDest w =
          .ok (⟨v, if asDest then .invalid .autoInc 7 else .discard, 1, some (p + 2)⟩, w)) ∧
      ∀ e, memRead w.mem (p + 2) sz = .error e → resolve sz ⟨.autoInc, 7⟩ p asDest w = .error (.access e)) ∧
    (∀ e, memRead w.mem (p + 2) .word = .error e → resolve sz ⟨.autoIncDeferred, 7⟩ p asDest w = .error (.access e)) ∧
    ∀ a, memRead w.mem (p + 2) .word = .ok a →
      (∀ v, memRead w.mem a sz = .ok v →
        resolve sz ⟨.autoIncDeferred, 7⟩ p asDest w =
          .ok (⟨v, if asDest then .invalid .autoIncDeferred 7 else .discard, 1, some a⟩, w)) ∧
      ∀ e, memRead w.mem a sz = .error e → resolve sz ⟨.autoIncDeferred, 7⟩ p asDest w = .error (.access e)

/-- Modes 4 and 5: the register is stepped down first, for R7 as a write of x[7]. A read that fails is the resolve's fault,
the pointer's before the operand's (40_addressing_modes.md R100, R101, in the order of their pseudocode). -/
def Obligations.AutoDecrementModes : Prop :=
  ∀ (sz : Size) (r : RegNum) (p : Word) (asDest : Bool) (w : Work),
    (∀ a, a = w.regs.get r - (if sz = .word then 2 else 1) →
      (∀ v, memRead w.mem a sz = .ok v →
        resolve sz ⟨.autoDec, r⟩ p asDest w =
          .ok (⟨v, if asDest then if sz = .word then .writeMemoryWord a else .writeMemoryByte a else .discard, 0, some a⟩,
            { w with regs := w.regs.put r a, pcWritten := w.pcWritten || decide (r = 7) })) ∧
      ∀ e, memRead w.mem a sz = .error e → resolve sz ⟨.autoDec, r⟩ p asDest w = .error (.access e)) ∧
    ∀ ptr, ptr = w.regs.get r - 2 →
      (∀ e, memRead w.mem ptr .word = .error e → resolve sz ⟨.autoDecDeferred, r⟩ p asDest w = .error (.access e)) ∧
      ∀ a, memRead w.mem ptr .word = .ok a →
        (∀ v, memRead w.mem a sz = .ok v →
          resolve sz ⟨.autoDecDeferred, r⟩ p asDest w =
            .ok (⟨v, if asDest then if sz = .word then .writeMemoryWord a else .writeMemoryByte a else .discard, 0,
                some a⟩,
              { w with regs := w.regs.put r ptr, pcWritten := w.pcWritten || decide (r = 7) })) ∧
        ∀ e, memRead w.mem a sz = .error e → resolve sz ⟨.autoDecDeferred, r⟩ p asDest w = .error (.access e)

/-- Modes 6 and 7: the displacement word at p + 2 is added to the register, for R7 to the address of the displacement word
itself; no register changes. A read that fails is the resolve's fault, the displacement's first, then the pointer's, then
the operand's: the order of faults is the spec's decision D29 (40_addressing_modes.md R102, R103, 60_exceptions.md R280). -/
def Obligations.IndexedModes : Prop :=
  ∀ (sz : Size) (r : RegNum) (p : Word) (asDest : Bool) (w : Work),
    (∀ e, memRead w.mem (p + 2) .word = .error e →
      resolve sz ⟨.indexed, r⟩ p asDest w = .error (.access e) ∧
      resolve sz ⟨.indexedDeferred, r⟩ p asDest w = .error (.access e)) ∧
    ∀ d ea, memRead w.mem (p + 2) .word = .ok d → ea = (if r = 7 then p + 2 else w.regs.get r) + d →
      ((∀ v, memRead w.mem ea sz = .ok v →
          resolve sz ⟨.indexed, r⟩ p asDest w =
            .ok (⟨v, if asDest then if sz = .word then .writeMemoryWord ea else .writeMemoryByte ea else .discard, 1,
              some ea⟩, w)) ∧
        ∀ e, memRead w.mem ea sz = .error e → resolve sz ⟨.indexed, r⟩ p asDest w = .error (.access e)) ∧
      (∀ e, memRead w.mem ea .word = .error e → resolve sz ⟨.indexedDeferred, r⟩ p asDest w = .error (.access e)) ∧
      ∀ a, memRead w.mem ea .word = .ok a →
        (∀ v, memRead w.mem a sz = .ok v →
          resolve sz ⟨.indexedDeferred, r⟩ p asDest w =
            .ok (⟨v, if asDest then if sz = .word then .writeMemoryWord a else .writeMemoryByte a else .discard, 1,
              some a⟩, w)) ∧
        ∀ e, memRead w.mem a sz = .error e → resolve sz ⟨.indexedDeferred, r⟩ p asDest w = .error (.access e)

/-- A completed instruction leaves x[7] as it wrote it last, or moves it past the opcode word and the extra words, and its
other work becomes the state's; a resolve that succeeds takes one extra word exactly for mode 2 or 3 with R7 and for modes
6 and 7. That x[7] counts as written by pcWritten is the spec's decision D12 (44_execution_loop.md R215,
40_addressing_modes.md R105). -/
def Obligations.PcAdvancesPastExtraWords : Prop :=
  (∀ (body : Work → Except Trap (Nat × Work)) (s : State) (extra : Nat) (w : Work),
    body (Work.ofState s) = .ok (extra, w) →
    ∃ t, runInstr body s = .next t ∧
      t.pc = (if w.pcWritten then w.regs.get 7 else s.pc + 2 + 2 * BitVec.ofNat 16 extra) ∧
      (∀ r, r ≠ 7 → t.regs.get r = w.regs.get r) ∧ t.flags = w.flags ∧ t.mem = w.mem ∧ t.faultLog = s.faultLog ∧
      SameOutsideCpu s t) ∧
  ∀ (sz : Size) (o : Operand) (p : Word) (asDest : Bool) (w w' : Work) (d : Desc),
    resolve sz o p asDest w = .ok (d, w') →
    d.extra = if (o.reg = 7 ∧ (o.mode = .autoInc ∨ o.mode = .autoIncDeferred)) ∨
      o.mode = .indexed ∨ o.mode = .indexedDeferred then 1 else 0

/-- `pcWritten` records every write of x[7], whatever the value: a decrement of R7 in modes 4 and 5, and a commit to R7.
The spec's decision D12 (44_execution_loop.md R214). -/
def Obligations.PcWrittenRecordsWritesOfR7 : Prop :=
  (∀ (sz : Size) (o : Operand) (p : Word) (asDest : Bool) (w w' : Work) (d : Desc),
    resolve sz o p asDest w = .ok (d, w') →
    w'.pcWritten = (w.pcWritten || decide (o.reg = 7 ∧ (o.mode = .autoDec ∨ o.mode = .autoDecDeferred)))) ∧
  ∀ (sz : Size) (wb : WriteBack) (v : Word) (w w' : Work), commit sz wb v w = .ok w' →
    w'.pcWritten = (w.pcWritten || decide (wb = .writeRegister 7))

/-- The packed byte: C, V, Z, N, T at bits 0 to 4. That bits 5 to 7 read 0 and are ignored on write is the spec's decision
D8 (10_state.md R30). -/
def Obligations.PackedStatusByte : Prop :=
  (∀ f : Flags, f.pack.getLsbD 0 = f.c ∧ f.pack.getLsbD 1 = f.v ∧ f.pack.getLsbD 2 = f.z ∧ f.pack.getLsbD 3 = f.n ∧
    f.pack.getLsbD 4 = f.t ∧ f.pack &&& 0xE0 = 0 ∧ Flags.unpack f.pack = f) ∧
  ∀ b : Byte, (Flags.unpack b).pack = b &&& 0x1F

/-! ### Two-operand instructions -/

/-- MOV: its encoding, its faults, its result and flags (41_two_operand.md R121). -/
def Obligations.MovCopiesTheWord : Prop :=
  ∀ (s : State) (src dst : Operand),
    field (encode (.mov src dst)) 15 12 = 0b0001 ∧ TwoOperandFaults (.mov src dst) .word true src dst s ∧
    ∀ (S D : Desc) (w : Work), Resolved2 .word src dst s S D w → Writable dst →
      ∃ w', commit .word D.wb S.value w = .ok w' ∧
        exec (.mov src dst) s = .next (complete s (S.extra + D.extra) { w' with
          flags := { n := S.value.getLsbD 15, z := decide (S.value = 0), v := false, c := s.flags.c, t := s.flags.t } })

/-- MOVB: C is bit 7 of the source (41_two_operand.md R122). -/
def Obligations.MovbCopiesTheByte : Prop :=
  ∀ (s : State) (src dst : Operand),
    field (encode (.movb src dst)) 15 12 = 0b1001 ∧ TwoOperandFaults (.movb src dst) .byte true src dst s ∧
    ∀ (S D : Desc) (w : Work), Resolved2 .byte src dst s S D w → Writable dst →
      ∃ w', commit .byte D.wb (S.value &&& 0xFF) w = .ok w' ∧
        exec (.movb src dst) s = .next (complete s (S.extra + D.extra) { w' with
          flags := { n := S.value.getLsbD 7, z := decide (S.value &&& 0xFF = 0), v := false, c := S.value.getLsbD 7,
                     t := s.flags.t } })

/-- ADD: the sum mod 2^16, C the unsigned carry, V as R123 says (41_two_operand.md R123). -/
def Obligations.AddAddsTheWords : Prop :=
  ∀ (s : State) (src dst : Operand),
    field (encode (.add src dst)) 15 12 = 0b0110 ∧ TwoOperandFaults (.add src dst) .word true src dst s ∧
    ∀ (S D : Desc) (w : Work), Resolved2 .word src dst s S D w → Writable dst →
      ∃ w', commit .word D.wb (D.value + S.value) w = .ok w' ∧
        exec (.add src dst) s = .next (complete s (S.extra + D.extra) { w' with
          flags := { n := (D.value + S.value).getLsbD 15
                     z := decide (D.value + S.value = 0)
                     v := (S.value.getLsbD 15 == D.value.getLsbD 15) &&
                       ((D.value + S.value).getLsbD 15 != D.value.getLsbD 15)
                     c := decide (0xFFFF < D.value.toNat + S.value.toNat)
                     t := s.flags.t } })

/-- SUB: dst - src, C the unsigned borrow, V the signed overflow (41_two_operand.md R124; its V formula is marked derived
there, from R133). -/
def Obligations.SubSubtractsTheWords : Prop :=
  ∀ (s : State) (src dst : Operand), TwoOperandFaults (.sub src dst) .word true src dst s ∧
    ∀ (S D : Desc) (w : Work), Resolved2 .word src dst s S D w → Writable dst →
      ∃ w', commit .word D.wb (D.value - S.value) w = .ok w' ∧
        exec (.sub src dst) s = .next (complete s (S.extra + D.extra) { w' with
          flags := { n := (D.value - S.value).getLsbD 15
                     z := decide (D.value - S.value = 0)
                     v := (S.value.getLsbD 15 != D.value.getLsbD 15) &&
                       ((D.value - S.value).getLsbD 15 != D.value.getLsbD 15)
                     c := decide (D.value.toNat < S.value.toNat)
                     t := s.flags.t } })

/-- CMP and CMPB compare dst - src and write nothing; a destination that cannot be written is accepted. V is the spec's
decision D5, under both values of UNSTATED_V (41_two_operand.md R125, R126). -/
def Obligations.CompareSetsFlagsOnly : Prop :=
  ∀ (s : State) (src dst : Operand) (i : Instr) (sz : Size),
    (i = .cmp src dst ∧ sz = .word) ∨ (i = .cmpb src dst ∧ sz = .byte) →
    TwoOperandFaults i sz false src dst s ∧
    ∀ (S D : Desc) (w : Work) (t : Word), Resolved2 sz src dst s S D w →
      t = (if sz = .word then D.value - S.value else (D.value - S.value) &&& 0xFF) →
      exec i s = .next (complete s (S.extra + D.extra) { w with
        flags := { n := signAt sz t
                   z := decide (t = 0)
                   v := if s.config.unstatedV = .unchanged then s.flags.v
                     else (signAt sz S.value != signAt sz D.value) && (signAt sz t != signAt sz D.value)
                   c := decide (D.value.toNat < S.value.toNat)
                   t := s.flags.t } })

/-- BIT and BITB test dst & src and write nothing (41_two_operand.md R127, R128). -/
def Obligations.BitTestSetsFlagsOnly : Prop :=
  ∀ (s : State) (src dst : Operand) (i : Instr) (sz : Size),
    (i = .bit src dst ∧ sz = .word) ∨ (i = .bitb src dst ∧ sz = .byte) →
    field (encode i) 15 12 = (if sz = .word then 0b0011 else 0b1011) ∧
    TwoOperandFaults i sz false src dst s ∧
    ∀ (S D : Desc) (w : Work) (t : Word), Resolved2 sz src dst s S D w →
      t = (if sz = .word then D.value &&& S.value else (D.value &&& S.value) &&& 0xFF) →
      exec i s = .next (complete s (S.extra + D.extra) { w with
        flags := { n := signAt sz t, z := decide (t = 0), v := false, c := s.flags.c, t := s.flags.t } })

/-- BIC and BIS, word and byte: dst & ~src, and dst | src. V is the spec's decision D5, under both values of UNSTATED_V
(41_two_operand.md R129 to R132). -/
def Obligations.BitClearAndBitSet : Prop :=
  ∀ (s : State) (src dst : Operand) (i : Instr) (sz : Size) (f : Word → Word → Word),
    (i = .bic src dst ∧ sz = .word ∧ f = fun a b : Word => b &&& ~~~a) ∨
    (i = .bicb src dst ∧ sz = .byte ∧ f = fun a b : Word => b &&& ~~~a &&& 0xFF) ∨
    (i = .bis src dst ∧ sz = .word ∧ f = fun a b : Word => b ||| a) ∨
    (i = .bisb src dst ∧ sz = .byte ∧ f = fun a b : Word => (b ||| a) &&& 0xFF) →
    TwoOperandFaults i sz true src dst s ∧
    ∀ (S D : Desc) (w : Work) (r : Word), Resolved2 sz src dst s S D w → Writable dst → r = f S.value D.value →
      ∃ w', commit sz D.wb r w = .ok w' ∧
        exec i s = .next (complete s (S.extra + D.extra) { w' with
          flags := { n := signAt sz r
                     z := decide (r = 0)
                     v := if s.config.unstatedV = .unchanged then s.flags.v else false
                     c := s.flags.c
                     t := s.flags.t } })

/-- The carries and overflows of the family are the true ones: C after ADD is the carry out, after SUB, CMP and CMPB the
borrow; V after ADD and SUB says that the signed result is out of range; and SUB undoes ADD (41_two_operand.md R133). -/
def Obligations.CarriesAndOverflowsAreExact : Prop :=
  ∀ (cfg : Config) (f : Flags) (src dst : Word),
    (aluAdd cfg f src dst).flags.c = decide (2 ^ 16 ≤ dst.toNat + src.toNat) ∧
    (aluAdd cfg f src dst).flags.v =
      decide (dst.toInt + src.toInt < -2 ^ 15 ∨ 2 ^ 15 - 1 < dst.toInt + src.toInt) ∧
    (aluSub cfg f src dst).flags.c = decide (dst.toNat < src.toNat) ∧
    (aluSub cfg f src dst).flags.v =
      decide (dst.toInt - src.toInt < -2 ^ 15 ∨ 2 ^ 15 - 1 < dst.toInt - src.toInt) ∧
    (∀ sz, (aluCmp sz cfg f src dst).flags.c = decide (dst.toNat < src.toNat)) ∧
    ∀ r, (aluAdd cfg f src dst).result = some r → (aluSub cfg f src r).result = some dst

/-! ### One-operand instructions -/

/-- CLR and CLRB (42_one_operand.md R151, R152). -/
def Obligations.ClearWritesZero : Prop :=
  ∀ (s : State) (dst : Operand) (i : Instr) (sz : Size),
    (i = .clr dst ∧ sz = .word) ∨ (i = .clrb dst ∧ sz = .byte) →
    field (encode i) 15 6 = (if sz = .word then 0o0050 else 0o1050) ∧
    OneOperandFaults i sz true true dst s ∧
    ∀ (O : Desc) (w : Work), Resolved1 sz true dst s O w → Writable dst →
      ∃ w', commit sz O.wb 0 w = .ok w' ∧
        exec i s = .next (complete s O.extra { w' with
          flags := { n := false, z := true, v := false, c := false, t := s.flags.t } })

/-- COM and COMB: C is forced to 1. V is the spec's decision D5, under both values of UNSTATED_V (42_one_operand.md R153,
R154). -/
def Obligations.ComplementForcesCarry : Prop :=
  ∀ (s : State) (dst : Operand) (i : Instr) (sz : Size),
    (i = .com dst ∧ sz = .word) ∨ (i = .comb dst ∧ sz = .byte) →
    OneOperandFaults i sz true true dst s ∧
    ∀ (O : Desc) (w : Work) (r : Word), Resolved1 sz true dst s O w → Writable dst →
      r = (if sz = .word then ~~~O.value else ~~~O.value &&& 0xFF) →
      ∃ w', commit sz O.wb r w = .ok w' ∧
        exec i s = .next (complete s O.extra { w' with
          flags := { n := signAt sz r
                     z := decide (r = 0)
                     v := if s.config.unstatedV = .unchanged then s.flags.v else false
                     c := true
                     t := s.flags.t } })

/-- INC, INCB, DEC and DECB: C on the wrap, V from the old value at the edge of the signed range. N and Z from the result
are the spec's decision D4 (42_one_operand.md R155 to R158). -/
def Obligations.IncrementAndDecrement : Prop :=
  ∀ (s : State) (dst : Operand) (i : Instr) (sz : Size) (f : Word → Word) (wrap edge : Word),
    (i = .inc dst ∧ sz = .word ∧ (f = fun v : Word => v + 1) ∧ wrap = 0 ∧ edge = 0x7FFF) ∨
    (i = .incb dst ∧ sz = .byte ∧ (f = fun v : Word => (v + 1) &&& 0xFF) ∧ wrap = 0 ∧ edge = 0x7F) ∨
    (i = .dec dst ∧ sz = .word ∧ (f = fun v : Word => v - 1) ∧ wrap = 0xFFFF ∧ edge = 0x8000) ∨
    (i = .decb dst ∧ sz = .byte ∧ (f = fun v : Word => (v - 1) &&& 0xFF) ∧ wrap = 0xFF ∧ edge = 0x80) →
    OneOperandFaults i sz true true dst s ∧
    ∀ (O : Desc) (w : Work) (r : Word), Resolved1 sz true dst s O w → Writable dst → r = f O.value →
      ∃ w', commit sz O.wb r w = .ok w' ∧
        exec i s = .next (complete s O.extra { w' with
          flags := { n := signAt sz r
                     z := decide (r = 0)
                     v := decide (O.value = edge)
                     c := decide (r = wrap)
                     t := s.flags.t } })

/-- NEG and NEGB. N and Z from the result are the spec's decision D4 (42_one_operand.md R159, R160). -/
def Obligations.NegateSetsCarryUnlessZero : Prop :=
  ∀ (s : State) (dst : Operand) (i : Instr) (sz : Size) (edge : Word),
    (i = .neg dst ∧ sz = .word ∧ edge = 0x8000) ∨ (i = .negb dst ∧ sz = .byte ∧ edge = 0x80) →
    OneOperandFaults i sz true true dst s ∧
    ∀ (O : Desc) (w : Work) (r : Word), Resolved1 sz true dst s O w → Writable dst →
      r = (if sz = .word then -O.value else -O.value &&& 0xFF) →
      ∃ w', commit sz O.wb r w = .ok w' ∧
        exec i s = .next (complete s O.extra { w' with
          flags := { n := signAt sz r
                     z := decide (r = 0)
                     v := decide (O.value = edge)
                     c := decide (O.value ≠ 0)
                     t := s.flags.t } })

/-- TST and TSTB write nothing; a literal operand is accepted (42_one_operand.md R161, R162). -/
def Obligations.TestSetsFlagsOnly : Prop :=
  ∀ (s : State) (src : Operand) (i : Instr) (sz : Size),
    (i = .tst src ∧ sz = .word) ∨ (i = .tstb src ∧ sz = .byte) →
    field (encode i) 15 6 = (if sz = .word then 0o0057 else 0o1057) ∧
    OneOperandFaults i sz false false src s ∧
    ∀ (O : Desc) (w : Work), Resolved1 sz false src s O w →
      exec i s = .next (complete s O.extra { w with
        flags := { n := signAt sz O.value, z := decide (O.value = 0), v := false, c := false, t := s.flags.t } })

/-- ASR, ASRB, ASL and ASLB: C is the bit shifted out. N and Z are the spec's decision D4, V its decision D5 under both
values of UNSTATED_V (42_one_operand.md R163 to R166). -/
def Obligations.ArithmeticShifts : Prop :=
  ∀ (s : State) (dst : Operand) (i : Instr) (sz : Size) (f : Word → Word) (out : Nat),
    (i = .asr dst ∧ sz = .word ∧ (f = fun v : Word => (v >>> 1) ||| (v &&& 0x8000)) ∧ out = 0) ∨
    (i = .asrb dst ∧ sz = .byte ∧ (f = fun v : Word => (v >>> 1) ||| (v &&& 0x80)) ∧ out = 0) ∨
    (i = .asl dst ∧ sz = .word ∧ (f = fun v : Word => v <<< 1) ∧ out = 15) ∨
    (i = .aslb dst ∧ sz = .byte ∧ (f = fun v : Word => (v <<< 1) &&& 0xFF) ∧ out = 7) →
    OneOperandFaults i sz true true dst s ∧
    ∀ (O : Desc) (w : Work) (r : Word), Resolved1 sz true dst s O w → Writable dst → r = f O.value →
      ∃ w', commit sz O.wb r w = .ok w' ∧
        exec i s = .next (complete s O.extra { w' with
          flags := { n := signAt sz r
                     z := decide (r = 0)
                     v := if s.config.unstatedV = .unchanged then s.flags.v
                       else signAt sz r != O.value.getLsbD out
                     c := O.value.getLsbD out
                     t := s.flags.t } })

/-- MFPS writes the packed byte and no flag: a byte everywhere, but a whole register under ZeroExtend. The two policies and
the flags left alone are the spec's decision D6 (42_one_operand.md R167). -/
def Obligations.MfpsWritesThePackedByte : Prop :=
  ∀ (s : State) (dst : Operand), OneOperandFaults (.mfps dst) .byte true true dst s ∧
    ∀ (O : Desc) (w : Work), Resolved1 .byte true dst s O w → Writable dst →
      ∃ w', commit (if s.config.mfpsRegPolicy = .zeroExtend ∧ dst.mode = .register then .word else .byte) O.wb
          (s.flags.pack.setWidth 16) w = .ok w' ∧
        exec (.mfps dst) s = .next (complete s O.extra { w' with flags := s.flags })

/-- MTPS sets all five flags from the operand's low five bits and writes nothing else; a literal operand is accepted. The
byte of a memory operand and the ignored bits are the spec's decision D7 (42_one_operand.md R168). -/
def Obligations.MtpsSetsAllFlags : Prop :=
  ∀ (s : State) (src : Operand), OneOperandFaults (.mtps src) .byte true false src s ∧
    ∀ (O : Desc) (w : Work), Resolved1 .byte true src s O w →
      exec (.mtps src) s = .next (complete s O.extra { w with
        flags := { n := O.value.getLsbD 3, z := O.value.getLsbD 2, v := O.value.getLsbD 1, c := O.value.getLsbD 0,
                   t := O.value.getLsbD 4 } })

/-! ### Branches, jump, halt -/

/-- A taken branch goes disp words past the next word, one not taken to the next word; nothing else changes
(43_branch_jump.md R190). -/
def Obligations.BranchesMoveThePcOnly : Prop :=
  ∀ (s : State) (disp : Int) (target next : Word),
    target = s.pc + 2 + BitVec.ofInt 16 (2 * disp) → next = s.pc + 2 →
    exec (.br disp) s = .next { s with regs := s.regs.put 7 target } ∧
    exec (.bne disp) s = .next { s with regs := s.regs.put 7 (if s.flags.z = false then target else next) } ∧
    exec (.beq disp) s = .next { s with regs := s.regs.put 7 (if s.flags.z = true then target else next) } ∧
    exec (.bpl disp) s = .next { s with regs := s.regs.put 7 (if s.flags.n = false then target else next) } ∧
    exec (.bmi disp) s = .next { s with regs := s.regs.put 7 (if s.flags.n = true then target else next) }

/-- JMP in mode 0 is refused with InvalidDestination; in every other mode whose operand resolves it goes to the effective
address, keeping the mode's register step. That the target's word is read, so that a bad target faults here, is the spec's
decision D16 (43_branch_jump.md R197). -/
def Obligations.JumpGoesToTheEffectiveAddress : Prop :=
  ∀ (s : State) (dst : Operand),
    (dst.mode = .register → exec (.jmp dst) s = .next (takeFault s (.invalidDestination .register dst.reg))) ∧
    (∀ t, resolve .word dst s.pc false (Work.ofState s) = .error t → exec (.jmp dst) s = .next (takeFault s t)) ∧
    ∀ (O : Desc) (w : Work), dst.mode ≠ .register → Resolved1 .word false dst s O w →
      ∃ a, O.ea = some a ∧ exec (.jmp dst) s = .next { s with regs := w.regs.put 7 a }

/-- JMP never leaves x[7] odd or above VALID_TOP, and a branch from an even address goes to an even one
(43_branch_jump.md R199, marked derived there). -/
def Obligations.JumpTargetsAreFetchable : Prop :=
  (∀ (s t : State) (dst : Operand), exec (.jmp dst) s = .next t → t.faultLog = s.faultLog →
    t.pc ≤ 0o157776#16 ∧ t.pc.getLsbD 0 = false) ∧
  ∀ (s t : State) (disp : Int) (i : Instr), s.pc.getLsbD 0 = false →
    i = .br disp ∨ i = .bne disp ∨ i = .beq disp ∨ i = .bpl disp ∨ i = .bmi disp →
    exec i s = .next t → t.pc.getLsbD 0 = false

/-- The halt sentinel stops the run with Halted and changes no register, flag or memory; x[7] stays at the halt word and the
halt is not counted. The last two are the spec's decision D13 (44_execution_loop.md R216). -/
def Obligations.HaltStopsTheRun : Prop :=
  ∀ s : State, exec .halt s =
    .next { s with fsm := .idle, replies := s.replies ++ [.run ⟨.halted, s.faultLog, s.steps⟩] }

/-! ### Faults -/

/-- An instruction reports at most one fault, and a faulting instruction leaves registers, flags and memory as they were
but for x[7], which goes on by one word; the entry carries pc, the kind and what the kind records. The restore is the
spec's decision D11 (44_execution_loop.md R219, 60_exceptions.md R279, R280). -/
def Obligations.FaultingInstructionHasNoOtherEffect : Prop :=
  (∀ (s : State) (e : AccessError), takeFault s (.access e) =
    { s with regs := s.regs.put 7 (s.pc + 2), faultLog := s.faultLog ++ [.access e.kind s.pc e.addr] }) ∧
  (∀ (s : State) (m : Mode) (r : RegNum), takeFault s (.invalidDestination m r) =
    { s with regs := s.regs.put 7 (s.pc + 2), faultLog := s.faultLog ++ [.invalidDestination s.pc m r] }) ∧
  ∀ (i : Instr) (s t : State), exec i s = .next t →
    t.faultLog = s.faultLog ∨
    ∃ e : LogEntry, t = { s with regs := s.regs.put 7 (s.pc + 2), faultLog := s.faultLog ++ [e] } ∧
      ((∃ k a, e = .access k s.pc a) ∨ ∃ m r, e = .invalidDestination s.pc m r)

/-- InvalidDestination is recorded only by an instruction that writes its operand, and by JMP: never by CMP, CMPB, BIT,
BITB, TST, TSTB, MTPS or a branch (60_exceptions.md R273). -/
def Obligations.ReadersNeverRaiseInvalidDestination : Prop :=
  ∀ (i : Instr) (s t : State) (m : Mode) (r : RegNum), exec i s = .next t →
    (∃ a b, i = .cmp a b ∨ i = .cmpb a b ∨ i = .bit a b ∨ i = .bitb a b) ∨
      (∃ a, i = .tst a ∨ i = .tstb a ∨ i = .mtps a) ∨
      (∃ d, i = .br d ∨ i = .bne d ∨ i = .beq d ∨ i = .bpl d ∨ i = .bmi d) →
    t.faultLog ≠ s.faultLog ++ [.invalidDestination s.pc m r]

/-- Every instruction answers a next state, faults included; only the halt sentinel touches the FSM; none touches the step
count, the console's state or the parameters (44_execution_loop.md R210, 10_state.md R36). -/
def Obligations.EveryInstructionAnswersANextState : Prop :=
  ∀ (i : Instr) (s : State), ∃ t, exec i s = .next t ∧ (i ≠ .halt → SameOutsideCpu s t) ∧
    t.lastAccess = s.lastAccess ∧ t.config = s.config ∧ t.steps = s.steps

/-! ### Frames -/

/-- MOV, MOVB, ADD, SUB, BIC, BICB, BIS, BISB: what a next state leaves unchanged. The stored bytes are those of the size at
the effective address of the destination, resolved after the source (41_two_operand.md R120, R134). That BIC, BICB, BIS and
BISB keep V under UNSTATED_V = Unchanged is the spec's decision D5 (log 6). -/
def Obligations.TwoOperandWritersFrame : Prop :=
  ∀ (s t : State) (src dst : Operand) (i : Instr) (sz : Size),
    (sz = .word ∧ (i = .mov src dst ∨ i = .add src dst ∨ i = .sub src dst ∨ i = .bic src dst ∨ i = .bis src dst)) ∨
    (sz = .byte ∧ (i = .movb src dst ∨ i = .bicb src dst ∨ i = .bisb src dst)) →
    exec i s = .next t →
    SameOutsideCpu s t ∧
    (∀ r, r ≠ 7 → ¬(r = dst.reg ∧ (dst.mode = .register ∨ Steps dst)) → ¬(r = src.reg ∧ Steps src) →
      t.regs.get r = s.regs.get r) ∧
    t.flags.t = s.flags.t ∧
    (i = .mov src dst ∨ i = .bic src dst ∨ i = .bis src dst ∨ i = .bicb src dst ∨ i = .bisb src dst →
      t.flags.c = s.flags.c) ∧
    (i = .bic src dst ∨ i = .bis src dst ∨ i = .bicb src dst ∨ i = .bisb src dst →
      s.config.unstatedV = .unchanged → t.flags.v = s.flags.v) ∧
    (dst.mode = .register ∨ ¬Writable dst → SameMemory s t) ∧
    ((¬∃ S D w, Resolved2 sz src dst s S D w) → SameMemory s t) ∧
    ∀ S D w a, Resolved2 sz src dst s S D w → D.ea = some a → SameMemoryOutside s t sz a

/-- CLR, COM, INC, DEC, NEG, ASR, ASL, their byte forms, and MFPS (42_one_operand.md R150, R167). That COM, ASR, ASL and their
byte forms keep V under UNSTATED_V = Unchanged is the spec's decision D5 (log 6); that MFPS keeps every flag is its decision
D6 (log 16). -/
def Obligations.OneOperandWritersFrame : Prop :=
  ∀ (s t : State) (dst : Operand) (i : Instr) (sz : Size),
    (sz = .word ∧ (i = .clr dst ∨ i = .com dst ∨ i = .inc dst ∨ i = .dec dst ∨ i = .neg dst ∨ i = .asr dst ∨
      i = .asl dst)) ∨
    (sz = .byte ∧ (i = .clrb dst ∨ i = .comb dst ∨ i = .incb dst ∨ i = .decb dst ∨ i = .negb dst ∨ i = .asrb dst ∨
      i = .aslb dst ∨ i = .mfps dst)) →
    exec i s = .next t →
    SameOutsideCpu s t ∧
    (∀ r, r ≠ 7 → ¬(r = dst.reg ∧ (dst.mode = .register ∨ Steps dst)) → t.regs.get r = s.regs.get r) ∧
    t.flags.t = s.flags.t ∧
    (i = .mfps dst → t.flags = s.flags) ∧
    (i = .com dst ∨ i = .comb dst ∨ i = .asr dst ∨ i = .asrb dst ∨ i = .asl dst ∨ i = .aslb dst →
      s.config.unstatedV = .unchanged → t.flags.v = s.flags.v) ∧
    (dst.mode = .register ∨ ¬Writable dst → SameMemory s t) ∧
    ((¬∃ O w, Resolved1 sz true dst s O w) → SameMemory s t) ∧
    ∀ O w a, Resolved1 sz true dst s O w → O.ea = some a → SameMemoryOutside s t sz a

/-- CMP, CMPB, BIT, BITB, TST, TSTB and MTPS store nothing and write no register but x[7] and those their modes step
(41_two_operand.md R125 to R128, 42_one_operand.md R161, R162, R168). That CMP and CMPB keep V under UNSTATED_V = Unchanged is
the spec's decision D5 (log 6). -/
def Obligations.ReadersFrame : Prop :=
  (∀ (s t : State) (src dst : Operand) (i : Instr),
    i = .cmp src dst ∨ i = .cmpb src dst ∨ i = .bit src dst ∨ i = .bitb src dst →
    exec i s = .next t →
    SameOutsideCpu s t ∧
    (∀ r, r ≠ 7 → ¬(r = dst.reg ∧ Steps dst) → ¬(r = src.reg ∧ Steps src) → t.regs.get r = s.regs.get r) ∧
    t.flags.t = s.flags.t ∧
    (i = .bit src dst ∨ i = .bitb src dst → t.flags.c = s.flags.c) ∧
    (i = .cmp src dst ∨ i = .cmpb src dst → s.config.unstatedV = .unchanged → t.flags.v = s.flags.v) ∧
    SameMemory s t) ∧
  ∀ (s t : State) (src : Operand) (i : Instr), i = .tst src ∨ i = .tstb src ∨ i = .mtps src →
    exec i s = .next t →
    SameOutsideCpu s t ∧
    (∀ r, r ≠ 7 → ¬(r = src.reg ∧ Steps src) → t.regs.get r = s.regs.get r) ∧
    (i = .tst src ∨ i = .tstb src → t.flags.t = s.flags.t) ∧
    SameMemory s t

/-- Branches change x[7] only; JMP changes x[7] and the register its mode steps (43_branch_jump.md R200). -/
def Obligations.BranchAndJumpFrame : Prop :=
  (∀ (s t : State) (disp : Int) (i : Instr),
    i = .br disp ∨ i = .bne disp ∨ i = .beq disp ∨ i = .bpl disp ∨ i = .bmi disp →
    exec i s = .next t →
    SameOutsideCpu s t ∧ t.flags = s.flags ∧ SameMemory s t ∧ t.faultLog = s.faultLog ∧
      ∀ r, r ≠ 7 → t.regs.get r = s.regs.get r) ∧
  ∀ (s t : State) (dst : Operand), exec (.jmp dst) s = .next t →
    SameOutsideCpu s t ∧ t.flags = s.flags ∧ SameMemory s t ∧
      ∀ r, r ≠ 7 → ¬(r = dst.reg ∧ Steps dst) → t.regs.get r = s.regs.get r

/-! ### The whole machine -/

/-- No instruction reads C, V or T as an input, but MFPS, which reads the packed byte: two states that differ in C, V and T
only go to states with the same registers, memory, fault log, N and Z (10_state.md R31). -/
def Obligations.CarryOverflowAndTraceAreNoInputs : Prop :=
  ∀ (i : Instr) (s : State) (v c t : Bool), (∀ o, i ≠ .mfps o) →
    ∃ u u', exec i s = .next u ∧ exec i { s with flags := { s.flags with v := v, c := c, t := t } } = .next u' ∧
      u'.regs = u.regs ∧ u'.mem = u.mem ∧ u'.faultLog = u.faultLog ∧ u'.fsm = u.fsm ∧ u'.flags.n = u.flags.n ∧
      u'.flags.z = u.flags.z

/-- While Running, a step whose bytes at x[7] decode to an instruction counts one step and executes it; the halt sentinel
is executed uncounted, even at the step ceiling (44_execution_loop.md R213, with the order of its checks D14, and D13). -/
def Obligations.StepRunsTheDecodedInstruction : Prop :=
  ∀ (s : State) (i : Instr), s.fsm = .running → s.pc ≤ 0o157776#16 → s.pc.getLsbD 0 = false →
    decode [s.mem.read s.pc.toNat, s.mem.read (s.pc.toNat + 1)] = .ok (i, []) →
    (i ≠ .halt → s.steps ≠ s.config.stepLimit → step s = exec i { s with steps := s.steps + 1 }) ∧
    (i = .halt → step s = exec .halt s)

/-- The checks before an instruction: a fetch fault ends the run and is logged; a halt word ends it before the ceiling is
looked at; at the ceiling any other word ends it and is logged. x[7] stays, and nothing but the log, the FSM and the reply
changes. The order is 60_exceptions.md R281; that the halt keeps x[7] and is not counted is the spec's decision D13, the
ceiling D14, the fetch fault D15 (44_execution_loop.md R216, R217, R218). -/
def Obligations.RunStopsBetweenInstructions : Prop :=
  ∀ s : State, s.fsm = .running →
    (∀ e, memRead s.mem s.pc .word = .error e → ∀ log, log = s.faultLog ++ [.fetchFault s.pc e.kind e.addr] →
      step s = .next { s with
        fsm := .idle, faultLog := log, replies := s.replies ++ [.run ⟨.fetchFault, log, s.steps⟩] }) ∧
    (memRead s.mem s.pc .word = .ok 0 →
      step s = .next { s with fsm := .idle, replies := s.replies ++ [.run ⟨.halted, s.faultLog, s.steps⟩] }) ∧
    ∀ W, memRead s.mem s.pc .word = .ok W → W ≠ 0 → s.steps = s.config.stepLimit →
      ∀ log, log = s.faultLog ++ [.stepCeilingAbort s.pc] →
      step s = .next { s with
        fsm := .idle, faultLog := log, replies := s.replies ++ [.run ⟨.stepCeilingAbort, log, s.steps⟩] }

/-- An unknown word is counted, logged as DecodeFault with pc and the word, and skipped by one word; nothing else changes
(60_exceptions.md R274). -/
def Obligations.UnknownWordIsLoggedAndSkipped : Prop :=
  ∀ (s : State) (W : Word) (e : DecodeError), s.fsm = .running → memRead s.mem s.pc .word = .ok W → W ≠ 0 →
    s.steps ≠ s.config.stepLimit → decodeWord W = .error e →
    step s = .next { s with
      steps := s.steps + 1
      regs := s.regs.put 7 (s.pc + 2)
      faultLog := s.faultLog ++ [.decodeFault s.pc W] }

/-- Every run terminates: from a Running state at or below the ceiling the FSM is Idle after at most one step more than the
instructions left, and the ceiling was kept (44_execution_loop.md R222, marked derived there). -/
def Obligations.EveryRunTerminates : Prop :=
  ∀ s : State, s.fsm = .running → s.steps ≤ s.config.stepLimit →
    ∃ k t, k ≤ s.config.stepLimit - s.steps + 1 ∧ Sys2Proof.core.run k s = .next t ∧ t.fsm = .idle ∧
      t.steps ≤ t.config.stepLimit ∧ ∃ r, t.replies = s.replies ++ [.run r] ∧ r.steps = t.steps ∧
      r.faultLog = t.faultLog

/-- Every step keeps the invariant: memory canonical, the ceiling kept, at most the last log entry ends a run, every other
fault belonging to a counted step, no session ended while Running. -/
def Obligations.StepKeepsTheInvariant : Prop :=
  ∀ s t : State, Inv s → step s = .next t → Inv t

/-- The state at session start meets the invariant. -/
def Obligations.ResetMeetsTheInvariant : Prop := Inv State.reset

/-- At session start the FSM is Idle and lastAccess is none (10_state.md R39). That steps is 0 and the log empty there, and
that registers, flags and memory are all zero, are the model's choices (log 1 to 4), which 70_reset_and_hazards.md R302
allows. -/
def Obligations.SessionStart : Prop :=
  State.reset.fsm = .idle ∧ State.reset.lastAccess = .none ∧ State.reset.steps = 0 ∧ State.reset.faultLog = [] ∧
  (∀ r, State.reset.regs.get r = 0) ∧ State.reset.flags.pack = 0 ∧ ∀ x, State.reset.mem.read x = 0

/-! ### The console -/

/-- REG_READ and REG_WRITE (45_console_host.md R243, R244). -/
def Obligations.ConsoleRegisterCommands : Prop :=
  ∀ (s : State) (n : RegNum) (v : Nat),
    runCommand s (.regRead n) =
      { s with lastAccess := .register n, replies := s.replies ++ [.word (s.regs.get n)] } ∧
    runCommand s (.regWrite n v) =
      { s with
        lastAccess := .register n
        regs := s.regs.put n (BitVec.ofNat 16 (v % 2 ^ 16))
        replies := s.replies ++ [.nothing] }

/-- MEM_READ and MEM_WRITE: a word at an even address, a byte at an odd one; a bad address is BUS ERROR and changes nothing.
The byte write is the spec's decision D21, the unchanged state D23 (45_console_host.md R245, R246). -/
def Obligations.ConsoleMemoryCommands : Prop :=
  ∀ (s : State) (a : Word) (v : Nat),
    (0o157776#16 < a →
      runCommand s (.memRead a) = { s with replies := s.replies ++ [.busError] } ∧
      runCommand s (.memWrite a v) = { s with replies := s.replies ++ [.busError] }) ∧
    (a ≤ 0o157776#16 → a.getLsbD 0 = false →
      runCommand s (.memRead a) = { s with
        lastAccess := .memory a
        replies := s.replies ++ [.word (s.mem.read (a.toNat + 1) ++ s.mem.read a.toNat)] } ∧
      runCommand s (.memWrite a v) = { s with
        lastAccess := .memory a
        mem := (s.mem.write a.toNat (BitVec.ofNat 8 v)).write (a.toNat + 1) (BitVec.ofNat 8 (v / 2 ^ 8))
        replies := s.replies ++ [.nothing] }) ∧
    (a ≤ 0o157776#16 → a.getLsbD 0 = true →
      runCommand s (.memRead a) = { s with
        lastAccess := .memory a, replies := s.replies ++ [.byte (s.mem.read a.toNat)] } ∧
      runCommand s (.memWrite a v) = { s with
        lastAccess := .memory a
        mem := s.mem.write a.toNat (BitVec.ofNat 8 v)
        replies := s.replies ++ [.nothing] })

/-- PSW_READ returns the packed flags and PSW_WRITE unpacks the value mod 256 into them; neither changes anything else. So
PSW_READ after PSW_WRITE returns the low five bits written. The top bits are the spec's decision D8, that lastAccess is kept
its decision D22 (45_console_host.md R247, R248, R256). -/
def Obligations.ConsoleStatusCommands : Prop :=
  ∀ (s : State) (v : Nat),
    runCommand s .pswRead = { s with replies := s.replies ++ [.psw s.flags.pack] } ∧
    runCommand s (.pswWrite v) = { s with
      flags := Flags.unpack (BitVec.ofNat 8 (v % 2 ^ 8)), replies := s.replies ++ [.nothing] } ∧
    (runCommand (runCommand s (.pswWrite v)) .pswRead).replies =
      s.replies ++ [.nothing, .psw (BitVec.ofNat 8 (v % 2 ^ 8) &&& 0x1F)]

/-- An empty line after a register access reads the next register, R0 after R7; with no access before it does nothing and
returns an empty result (45_console_host.md R252, R253). -/
def Obligations.ContinuationOfRegisters : Prop :=
  ∀ (s : State) (n m : RegNum),
    (s.lastAccess = .register n → m.val = (n.val + 1) % 8 →
      runCommand s .continuation = runCommand s (.regRead m) ∧
      (runCommand s .continuation).lastAccess = .register m) ∧
    (s.lastAccess = .none → runCommand s .continuation = { s with replies := s.replies ++ [.nothing] })

/-- An empty line after a memory access reads on from it: a word after a word, the next word after a byte. The address wraps
and a BUS ERROR keeps lastAccess: the spec's decision D30 (45_console_host.md R251). -/
def Obligations.ContinuationOfMemory : Prop :=
  ∀ (s : State) (a next : Word), s.lastAccess = .memory a → next = a + (if a.getLsbD 0 then 1 else 2) →
    next.getLsbD 0 = false ∧
    runCommand s .continuation = runCommand s (.memRead next) ∧
    (0o157776#16 < next → (runCommand s .continuation).lastAccess = .memory a)

/-- While Idle with the session active, a step takes the oldest line and runs its command; EXEC_AT starts a run there: x[7]
is the address, which is not checked (the spec's decision D24), steps 0, the log empty, the FSM Running; a line that is no command is a
parse error and changes nothing else (that it keeps lastAccess is the spec's decision D23); with no line the machine waits,
and after QUIT it stops: those two are the model's choices (log 8, 9) (44_execution_loop.md R211, 45_console_host.md R250, R254). -/
def Obligations.IdleStepTakesOneLine : Prop :=
  ∀ s : State, s.fsm = .idle →
    (s.session = .ended → step s = .fault .sessionEnded) ∧
    (s.session = .active → s.input = [] → step s = .next s) ∧
    ∀ line rest, s.session = .active → s.input = line :: rest →
      (∀ c, parseLine line = some c → step s = .next (runCommand { s with input := rest } c)) ∧
      (∀ a, parseLine line = some (.execAt a) → step s = .next { s with
        input := rest, regs := s.regs.put 7 a, steps := 0, faultLog := [], fsm := .running }) ∧
      (parseLine line = some .quit → step s = .next { s with
        input := rest, session := .ended, replies := s.replies ++ [.quit] }) ∧
      (parseLine line = none → step s = .next { s with input := rest, replies := s.replies ++ [.parseError] })

/-- One line of each form of the grammar, and lines of none (45_console_host.md R241, R242; case and blanks are the spec's
decision D25). -/
def Obligations.SampleLinesParse : Prop :=
  parseLine "".toList = some .continuation ∧
  parseLine " quit ".toList = some .quit ∧
  parseLine "RS/".toList = some .pswRead ∧
  parseLine "rs / 377".toList = some (.pswWrite 0o377) ∧
  parseLine "R6/".toList = some (.regRead 6) ∧
  parseLine "R2/200000".toList = some (.regWrite 2 0o200000) ∧
  parseLine "1002/".toList = some (.memRead 0o1002) ∧
  parseLine "201001/5003".toList = some (.memWrite 0o1001 0o5003) ∧
  parseLine "1000 G".toList = some (.execAt 0o1000) ∧
  parseLine "R8/".toList = none ∧ parseLine "R1/9".toList = none ∧ parseLine "1000 X".toList = none ∧
  parseLine "hello".toList = none
end

