-- ==== Sys2Proof/Laws/Flags.lean ====
section
/-! SUPPORT. The size helpers of the flag computations as bits and plain equations. -/

namespace Sys2Proof.Machine

/-- A one-bit mask tests its bit. -/
theorem and_twoPow_ne_zero_iff (r m : Word) (k : Nat) (hm : m = BitVec.twoPow 16 k) (hk : k < 16) :
    r &&& m ≠ 0 ↔ r.getLsbD k = true := by
  subst hm
  rw [BitVec.and_twoPow]
  constructor
  · intro h; by_contra h2; simp [h2] at h
  · intro h hc
    rw [if_pos h] at hc
    simpa [hk] using congrArg (fun x => x.getLsbD k) hc

/-- N at word size is bit 15 of the result (00_scope.md R13, R15). -/
theorem isNegative_word (r : Word) : isNegative .word r = r.getLsbD 15 := by
  rw [Bool.eq_iff_iff]
  unfold isNegative
  rw [decide_eq_true_iff]
  exact and_twoPow_ne_zero_iff r _ 15 (by decide) (by decide)

/-- N at byte size is bit 7 of the result. -/
theorem isNegative_byte (r : Word) : isNegative .byte r = r.getLsbD 7 := by
  rw [Bool.eq_iff_iff]
  unfold isNegative
  rw [decide_eq_true_iff]
  exact and_twoPow_ne_zero_iff r _ 7 (by decide) (by decide)

/-- The word mask drops nothing. -/
theorem and_sizeMask_word (r : Word) : r &&& sizeMask .word = r := BitVec.and_allOnes

/-- Z at word size (R15). -/
theorem isZero_word (r : Word) : isZero .word r = decide (r = 0) := by
  unfold isZero
  simp only [and_sizeMask_word]

/-- Z at byte size. -/
theorem isZero_byte (r : Word) : isZero .byte r = decide (r &&& 0xFF = 0) := rfl

/-- Masking to a byte twice is masking once. -/
theorem and_byte_mask_idem (r : Word) : r &&& 0xFF &&& 0xFF = r &&& 0xFF := by
  rw [BitVec.and_assoc]; rfl

/-- Z of a value already taken to a byte. -/
theorem isZero_byte_masked (r : Word) : isZero .byte (r &&& 0xFF) = decide (r &&& 0xFF = 0) := by
  rw [isZero_byte]
  simp only [and_byte_mask_idem]

/-- The two values of UNSTATED_V. -/
theorem unstatedV_eq (cfg : Config) (old computed : Bool) :
    unstatedV cfg old computed = if cfg.unstatedV = .unchanged then old else computed := by
  unfold unstatedV
  cases cfg.unstatedV <;> simp

end Sys2Proof.Machine
end

