-- ==== Sys2Proof/Laws/State.lean ====
section
/-! SUPPORT. Every update of State and of Work, field by field, and the two laws of the register file. -/

namespace Sys2Proof.Machine

/-! ### Registers -/

@[simp] theorem Regs.get_put_self (x : Regs) (i : RegNum) (v : Word) : (x.put i v).get i = v := by
  simp [Regs.get, Regs.put]

theorem Regs.get_put_ne (x : Regs) {i j : RegNum} (v : Word) (h : j ≠ i) : (x.put i v).get j = x.get j := by
  have : i.val ≠ j.val := fun e => h (Fin.ext e.symm)
  simp [Regs.get, Regs.put, this]

theorem Regs.get_put (x : Regs) (i j : RegNum) (v : Word) : (x.put i v).get j = if j = i then v else x.get j := by
  by_cases h : j = i
  · subst h; simp
  · simp [h, Regs.get_put_ne]

/-- A second write to the same register wins (43_branch_jump.md R198). -/
@[simp] theorem Regs.put_put (x : Regs) (i : RegNum) (u v : Word) : (x.put i u).put i v = x.put i v := by
  simp [Regs.put]

/-- Two register files are equal when every register is. -/
theorem Regs.ext_get {x y : Regs} (h : ∀ i, x.get i = y.get i) : x = y :=
  Vector.ext fun i hi => h ⟨i, hi⟩

/-! ### takeFault -/

@[simp] theorem takeFault_regs (s : State) (t : Trap) : (takeFault s t).regs = s.regs.put pcReg (s.pc + 2) := rfl
@[simp] theorem takeFault_flags (s : State) (t : Trap) : (takeFault s t).flags = s.flags := rfl
@[simp] theorem takeFault_mem (s : State) (t : Trap) : (takeFault s t).mem = s.mem := rfl
@[simp] theorem takeFault_fsm (s : State) (t : Trap) : (takeFault s t).fsm = s.fsm := rfl
@[simp] theorem takeFault_steps (s : State) (t : Trap) : (takeFault s t).steps = s.steps := rfl
@[simp] theorem takeFault_faultLog (s : State) (t : Trap) : (takeFault s t).faultLog = s.faultLog ++ [t.logEntry s.pc] := rfl
@[simp] theorem takeFault_lastAccess (s : State) (t : Trap) : (takeFault s t).lastAccess = s.lastAccess := rfl
@[simp] theorem takeFault_config (s : State) (t : Trap) : (takeFault s t).config = s.config := rfl
@[simp] theorem takeFault_input (s : State) (t : Trap) : (takeFault s t).input = s.input := rfl
@[simp] theorem takeFault_replies (s : State) (t : Trap) : (takeFault s t).replies = s.replies := rfl
@[simp] theorem takeFault_session (s : State) (t : Trap) : (takeFault s t).session = s.session := rfl

/-! ### complete -/

@[simp] theorem complete_regs (s : State) (extra : Nat) (w : Work) : (complete s extra w).regs = if w.pcWritten then w.regs else w.regs.put pcReg (nextPc s.pc extra) := rfl
@[simp] theorem complete_flags (s : State) (extra : Nat) (w : Work) : (complete s extra w).flags = w.flags := rfl
@[simp] theorem complete_mem (s : State) (extra : Nat) (w : Work) : (complete s extra w).mem = w.mem := rfl
@[simp] theorem complete_fsm (s : State) (extra : Nat) (w : Work) : (complete s extra w).fsm = s.fsm := rfl
@[simp] theorem complete_steps (s : State) (extra : Nat) (w : Work) : (complete s extra w).steps = s.steps := rfl
@[simp] theorem complete_faultLog (s : State) (extra : Nat) (w : Work) : (complete s extra w).faultLog = s.faultLog := rfl
@[simp] theorem complete_lastAccess (s : State) (extra : Nat) (w : Work) : (complete s extra w).lastAccess = s.lastAccess := rfl
@[simp] theorem complete_config (s : State) (extra : Nat) (w : Work) : (complete s extra w).config = s.config := rfl
@[simp] theorem complete_input (s : State) (extra : Nat) (w : Work) : (complete s extra w).input = s.input := rfl
@[simp] theorem complete_replies (s : State) (extra : Nat) (w : Work) : (complete s extra w).replies = s.replies := rfl
@[simp] theorem complete_session (s : State) (extra : Nat) (w : Work) : (complete s extra w).session = s.session := rfl

/-! ### startRun -/

@[simp] theorem startRun_regs (s : State) (addr : Word) : (startRun s addr).regs = s.regs.put pcReg addr := rfl
@[simp] theorem startRun_flags (s : State) (addr : Word) : (startRun s addr).flags = s.flags := rfl
@[simp] theorem startRun_mem (s : State) (addr : Word) : (startRun s addr).mem = s.mem := rfl
@[simp] theorem startRun_fsm (s : State) (addr : Word) : (startRun s addr).fsm = .running := rfl
@[simp] theorem startRun_steps (s : State) (addr : Word) : (startRun s addr).steps = 0 := rfl
@[simp] theorem startRun_faultLog (s : State) (addr : Word) : (startRun s addr).faultLog = [] := rfl
@[simp] theorem startRun_lastAccess (s : State) (addr : Word) : (startRun s addr).lastAccess = s.lastAccess := rfl
@[simp] theorem startRun_config (s : State) (addr : Word) : (startRun s addr).config = s.config := rfl
@[simp] theorem startRun_input (s : State) (addr : Word) : (startRun s addr).input = s.input := rfl
@[simp] theorem startRun_replies (s : State) (addr : Word) : (startRun s addr).replies = s.replies := rfl
@[simp] theorem startRun_session (s : State) (addr : Word) : (startRun s addr).session = s.session := rfl

/-! ### stopRun -/

@[simp] theorem stopRun_regs (s : State) (reason : StopReason) : (stopRun s reason).regs = s.regs := rfl
@[simp] theorem stopRun_flags (s : State) (reason : StopReason) : (stopRun s reason).flags = s.flags := rfl
@[simp] theorem stopRun_mem (s : State) (reason : StopReason) : (stopRun s reason).mem = s.mem := rfl
@[simp] theorem stopRun_fsm (s : State) (reason : StopReason) : (stopRun s reason).fsm = .idle := rfl
@[simp] theorem stopRun_steps (s : State) (reason : StopReason) : (stopRun s reason).steps = s.steps := rfl
@[simp] theorem stopRun_faultLog (s : State) (reason : StopReason) : (stopRun s reason).faultLog = s.faultLog := rfl
@[simp] theorem stopRun_lastAccess (s : State) (reason : StopReason) : (stopRun s reason).lastAccess = s.lastAccess := rfl
@[simp] theorem stopRun_config (s : State) (reason : StopReason) : (stopRun s reason).config = s.config := rfl
@[simp] theorem stopRun_input (s : State) (reason : StopReason) : (stopRun s reason).input = s.input := rfl
@[simp] theorem stopRun_replies (s : State) (reason : StopReason) : (stopRun s reason).replies = s.replies ++ [.run ⟨reason, s.faultLog, s.steps⟩] := rfl
@[simp] theorem stopRun_session (s : State) (reason : StopReason) : (stopRun s reason).session = s.session := rfl

/-! ### countStep -/

@[simp] theorem countStep_regs (s : State) : (countStep s).regs = s.regs := rfl
@[simp] theorem countStep_flags (s : State) : (countStep s).flags = s.flags := rfl
@[simp] theorem countStep_mem (s : State) : (countStep s).mem = s.mem := rfl
@[simp] theorem countStep_fsm (s : State) : (countStep s).fsm = s.fsm := rfl
@[simp] theorem countStep_steps (s : State) : (countStep s).steps = s.steps + 1 := rfl
@[simp] theorem countStep_faultLog (s : State) : (countStep s).faultLog = s.faultLog := rfl
@[simp] theorem countStep_lastAccess (s : State) : (countStep s).lastAccess = s.lastAccess := rfl
@[simp] theorem countStep_config (s : State) : (countStep s).config = s.config := rfl
@[simp] theorem countStep_input (s : State) : (countStep s).input = s.input := rfl
@[simp] theorem countStep_replies (s : State) : (countStep s).replies = s.replies := rfl
@[simp] theorem countStep_session (s : State) : (countStep s).session = s.session := rfl

/-! ### reply -/

@[simp] theorem reply_regs (s : State) (r : Reply) : (reply s r).regs = s.regs := rfl
@[simp] theorem reply_flags (s : State) (r : Reply) : (reply s r).flags = s.flags := rfl
@[simp] theorem reply_mem (s : State) (r : Reply) : (reply s r).mem = s.mem := rfl
@[simp] theorem reply_fsm (s : State) (r : Reply) : (reply s r).fsm = s.fsm := rfl
@[simp] theorem reply_steps (s : State) (r : Reply) : (reply s r).steps = s.steps := rfl
@[simp] theorem reply_faultLog (s : State) (r : Reply) : (reply s r).faultLog = s.faultLog := rfl
@[simp] theorem reply_lastAccess (s : State) (r : Reply) : (reply s r).lastAccess = s.lastAccess := rfl
@[simp] theorem reply_config (s : State) (r : Reply) : (reply s r).config = s.config := rfl
@[simp] theorem reply_input (s : State) (r : Reply) : (reply s r).input = s.input := rfl
@[simp] theorem reply_replies (s : State) (r : Reply) : (reply s r).replies = s.replies ++ [r] := rfl
@[simp] theorem reply_session (s : State) (r : Reply) : (reply s r).session = s.session := rfl

/-! ### setRegister -/

@[simp] theorem setRegister_regs (s : State) (n : RegNum) (v : Nat) : (setRegister s n v).regs = s.regs.put n (BitVec.ofNat 16 v) := rfl
@[simp] theorem setRegister_flags (s : State) (n : RegNum) (v : Nat) : (setRegister s n v).flags = s.flags := rfl
@[simp] theorem setRegister_mem (s : State) (n : RegNum) (v : Nat) : (setRegister s n v).mem = s.mem := rfl
@[simp] theorem setRegister_fsm (s : State) (n : RegNum) (v : Nat) : (setRegister s n v).fsm = s.fsm := rfl
@[simp] theorem setRegister_steps (s : State) (n : RegNum) (v : Nat) : (setRegister s n v).steps = s.steps := rfl
@[simp] theorem setRegister_faultLog (s : State) (n : RegNum) (v : Nat) : (setRegister s n v).faultLog = s.faultLog := rfl
@[simp] theorem setRegister_lastAccess (s : State) (n : RegNum) (v : Nat) : (setRegister s n v).lastAccess = s.lastAccess := rfl
@[simp] theorem setRegister_config (s : State) (n : RegNum) (v : Nat) : (setRegister s n v).config = s.config := rfl
@[simp] theorem setRegister_input (s : State) (n : RegNum) (v : Nat) : (setRegister s n v).input = s.input := rfl
@[simp] theorem setRegister_replies (s : State) (n : RegNum) (v : Nat) : (setRegister s n v).replies = s.replies := rfl
@[simp] theorem setRegister_session (s : State) (n : RegNum) (v : Nat) : (setRegister s n v).session = s.session := rfl

/-! ### setFlags -/

@[simp] theorem setFlags_regs (s : State) (v : Nat) : (setFlags s v).regs = s.regs := rfl
@[simp] theorem setFlags_flags (s : State) (v : Nat) : (setFlags s v).flags = Flags.unpack (BitVec.ofNat 8 v) := rfl
@[simp] theorem setFlags_mem (s : State) (v : Nat) : (setFlags s v).mem = s.mem := rfl
@[simp] theorem setFlags_fsm (s : State) (v : Nat) : (setFlags s v).fsm = s.fsm := rfl
@[simp] theorem setFlags_steps (s : State) (v : Nat) : (setFlags s v).steps = s.steps := rfl
@[simp] theorem setFlags_faultLog (s : State) (v : Nat) : (setFlags s v).faultLog = s.faultLog := rfl
@[simp] theorem setFlags_lastAccess (s : State) (v : Nat) : (setFlags s v).lastAccess = s.lastAccess := rfl
@[simp] theorem setFlags_config (s : State) (v : Nat) : (setFlags s v).config = s.config := rfl
@[simp] theorem setFlags_input (s : State) (v : Nat) : (setFlags s v).input = s.input := rfl
@[simp] theorem setFlags_replies (s : State) (v : Nat) : (setFlags s v).replies = s.replies := rfl
@[simp] theorem setFlags_session (s : State) (v : Nat) : (setFlags s v).session = s.session := rfl

/-! ### Work -/

@[simp] theorem ofState_regs (s : State) : (Work.ofState s).regs = s.regs := rfl
@[simp] theorem ofState_flags (s : State) : (Work.ofState s).flags = s.flags := rfl
@[simp] theorem ofState_mem (s : State) : (Work.ofState s).mem = s.mem := rfl
@[simp] theorem ofState_pcWritten (s : State) : (Work.ofState s).pcWritten = false := rfl
@[simp] theorem writeReg_regs (w : Work) (i : RegNum) (v : Word) : (w.writeReg i v).regs = w.regs.put i v := rfl
@[simp] theorem writeReg_flags (w : Work) (i : RegNum) (v : Word) : (w.writeReg i v).flags = w.flags := rfl
@[simp] theorem writeReg_mem (w : Work) (i : RegNum) (v : Word) : (w.writeReg i v).mem = w.mem := rfl
@[simp] theorem writeReg_pcWritten (w : Work) (i : RegNum) (v : Word) :
    (w.writeReg i v).pcWritten = (w.pcWritten || decide (i = pcReg)) := rfl

/-! ### The program counter -/

@[simp] theorem takeFault_pc (s : State) (t : Trap) : (takeFault s t).pc = s.pc + 2 := by simp [State.pc]
@[simp] theorem startRun_pc (s : State) (addr : Word) : (startRun s addr).pc = addr := by simp [State.pc]
@[simp] theorem stopRun_pc (s : State) (reason : StopReason) : (stopRun s reason).pc = s.pc := rfl
@[simp] theorem countStep_pc (s : State) : (countStep s).pc = s.pc := rfl

theorem complete_pc (s : State) (extra : Nat) (w : Work) :
    (complete s extra w).pc = if w.pcWritten then w.regs.get pcReg else nextPc s.pc extra := by
  cases h : w.pcWritten <;> simp [State.pc, h]

end Sys2Proof.Machine
end

