-- ==== Sys2Proof/Laws/Memory.lean ====
section
/-! SUPPORT. The laws of memory: a read after a write, and the canonical form that every memory operation keeps. -/

namespace Sys2Proof.Machine

/-! ### One byte -/

theorem Memory.read_insert (m : Memory) (a x : Nat) (b : Byte) :
    (m.insert a b).read x = if x = a then b else m.read x := by
  induction m with
  | nil => simp [Memory.insert, Memory.read, eq_comm]
  | cons c rest ih =>
    obtain ⟨k, d⟩ := c
    unfold Memory.insert
    split
    · simp [Memory.read, eq_comm (a := a)]
    · split
      · subst_vars
        by_cases hx : x = k <;> simp [Memory.read, hx, eq_comm (a := k)]
      · simp only [Memory.read, ih]
        by_cases hx : x = a
        · subst hx; simp [Ne.symm ‹_›]
        · simp [hx]

theorem Memory.read_erase (m : Memory) (a x : Nat) :
    Memory.read (m.filter (fun c => c.1 ≠ a)) x = if x = a then launchByte else m.read x := by
  induction m with
  | nil => simp [Memory.read]
  | cons c rest ih =>
    obtain ⟨k, d⟩ := c
    by_cases hk : k = a
    · subst hk
      simp only [ne_eq, decide_not] at ih
      by_cases hx : x = k
      · subst hx; simpa using ih
      · simpa [Memory.read, hx, eq_comm (a := k)] using ih
    · simp only [ne_eq, decide_not] at ih
      by_cases hx : x = a
      · subst hx; simp [Memory.read, ih, hk]
      · simp [Memory.read, ih, hk, hx]

/-- A byte read after a byte write: the byte written at that address, the old byte at every other. -/
theorem Memory.read_write (m : Memory) (a x : Nat) (b : Byte) :
    (m.write a b).read x = if x = a then b else m.read x := by
  unfold Memory.write
  split
  · rw [Memory.read_erase]; subst_vars; rfl
  · exact Memory.read_insert m a x b

@[simp] theorem Memory.read_write_self (m : Memory) (a : Nat) (b : Byte) : (m.write a b).read a = b := by
  simp [Memory.read_write]

theorem Memory.read_write_ne (m : Memory) {a x : Nat} (b : Byte) (h : x ≠ a) : (m.write a b).read x = m.read x := by
  simp [Memory.read_write, h]

/-! ### The canonical form -/

theorem Memory.wf_cons (k : Nat) (b : Byte) (rest : Memory) :
    Memory.wf ((k, b) :: rest) = true ↔
      k < memorySize ∧ b ≠ launchByte ∧ (∀ c ∈ rest, k < c.1) ∧ Memory.wf rest = true := by
  simp [Memory.wf, and_assoc]

theorem Memory.mem_insert {m : Memory} {a : Nat} {b : Byte} {c : Host.Cell} (h : c ∈ m.insert a b) :
    c = (a, b) ∨ c ∈ m := by
  induction m with
  | nil => simpa [Memory.insert] using h
  | cons d rest ih =>
    obtain ⟨k, e⟩ := d
    unfold Memory.insert at h
    split at h
    · simpa using h
    · split at h
      · rcases List.mem_cons.1 h with h | h
        · exact .inl h
        · exact .inr (List.mem_cons_of_mem _ h)
      · rcases List.mem_cons.1 h with h | h
        · exact .inr (by simp [h])
        · rcases ih h with h | h
          · exact .inl h
          · exact .inr (List.mem_cons_of_mem _ h)

theorem Memory.wf_insert {m : Memory} {a : Nat} {b : Byte} (hm : m.wf = true) (ha : a < memorySize)
    (hb : b ≠ launchByte) : (m.insert a b).wf = true := by
  induction m with
  | nil => simp [Memory.insert, Memory.wf, ha, hb]
  | cons d rest ih =>
    obtain ⟨k, e⟩ := d
    obtain ⟨hk, he, hlt, hrest⟩ := (Memory.wf_cons k e rest).1 hm
    unfold Memory.insert
    split
    · rename_i hak
      refine (Memory.wf_cons _ _ _).2 ⟨ha, hb, ?_, hm⟩
      rintro c hc
      rcases List.mem_cons.1 hc with rfl | hc
      · exact hak
      · exact lt_trans hak (hlt c hc)
    · split
      · rename_i hak
        subst hak
        exact (Memory.wf_cons _ _ _).2 ⟨ha, hb, hlt, hrest⟩
      · refine (Memory.wf_cons _ _ _).2 ⟨hk, he, ?_, ih hrest⟩
        intro c hc
        rcases Memory.mem_insert hc with rfl | hc
        · simp only; omega
        · exact hlt c hc

theorem Memory.wf_filter {m : Memory} (p : Host.Cell → Bool) (hm : m.wf = true) : Memory.wf (m.filter p) = true := by
  induction m with
  | nil => rfl
  | cons d rest ih =>
    obtain ⟨k, e⟩ := d
    obtain ⟨hk, he, hlt, hrest⟩ := (Memory.wf_cons k e rest).1 hm
    rw [List.filter_cons]
    split
    · exact (Memory.wf_cons _ _ _).2 ⟨hk, he, fun c hc => hlt c (List.mem_filter.1 hc).1, ih hrest⟩
    · exact ih hrest

/-- Writing a byte keeps the canonical form. -/
theorem Memory.wf_write {m : Memory} {a : Nat} {b : Byte} (hm : m.wf = true) (ha : a < memorySize) :
    (m.write a b).wf = true := by
  unfold Memory.write
  split
  · exact Memory.wf_filter _ hm
  · exact Memory.wf_insert hm ha ‹_›

/-! ### Accesses -/

/-- `checkAccess` accepts exactly the addresses at most VALID_TOP, even ones for a word (20_memory.md R44, R45). -/
theorem checkAccess_ok_iff (a : Word) (sz : Size) :
    checkAccess a sz = .ok () ↔ a ≤ validTop ∧ (sz = .word → a.getLsbD 0 = false) := by
  unfold checkAccess
  split
  · rename_i h
    simp [BitVec.not_le.2 h]
  · rename_i h
    have h := BitVec.not_lt.1 h
    split
    · rename_i h2; simp [h2.1, h2.2]
    · rename_i h2
      simp only [true_iff]
      refine ⟨h, fun hs => ?_⟩
      cases hb : a.getLsbD 0
      · rfl
      · exact absurd ⟨hs, hb⟩ h2

theorem toNat_le_validTop {a : Word} (h : a ≤ validTop) : a.toNat ≤ 0o157776 := by
  simpa [validTop, BitVec.le_def] using h

/-- Everything a write can do: it passed the check, and the memory is the old one with one or two bytes replaced. -/
theorem memWrite_ok_iff (m m' : Memory) (a : Word) (sz : Size) (v : Word) :
    memWrite m a sz v = .ok m' ↔
      checkAccess a sz = .ok () ∧
        m' = (match sz with
          | .byte => m.write a.toNat (lowByte v)
          | .word => m.writeWordAt a v) := by
  unfold memWrite
  cases h : checkAccess a sz <;> cases sz <;> simp [eq_comm]

/-- Everything a read can do. -/
theorem memRead_ok_iff (m : Memory) (a : Word) (sz : Size) (v : Word) :
    memRead m a sz = .ok v ↔
      checkAccess a sz = .ok () ∧
        v = (match sz with
          | .byte => (m.read a.toNat).setWidth 16
          | .word => m.readWordAt a) := by
  unfold memRead
  cases h : checkAccess a sz <;> cases sz <;> simp [eq_comm]

theorem memRead_error_iff (m : Memory) (a : Word) (sz : Size) (e : AccessError) :
    memRead m a sz = .error e ↔ checkAccess a sz = .error e := by
  unfold memRead
  cases h : checkAccess a sz <;> cases sz <;> simp

theorem memWrite_error_iff (m : Memory) (a : Word) (sz : Size) (v : Word) (e : AccessError) :
    memWrite m a sz v = .error e ↔ checkAccess a sz = .error e := by
  unfold memWrite
  cases h : checkAccess a sz <;> cases sz <;> simp

theorem Memory.wf_writeWordAt {m : Memory} {a v : Word} (hm : m.wf = true) (ha : a ≤ validTop) :
    (m.writeWordAt a v).wf = true := by
  have := toNat_le_validTop ha
  exact Memory.wf_write (Memory.wf_write hm (by simp [memorySize]; omega)) (by simp [memorySize]; omega)

/-- Every memory write keeps the canonical form. -/
theorem memWrite_wf {m m' : Memory} {a v : Word} {sz : Size} (hm : m.wf = true) (h : memWrite m a sz v = .ok m') :
    m'.wf = true := by
  obtain ⟨hc, rfl⟩ := (memWrite_ok_iff ..).1 h
  have ha := ((checkAccess_ok_iff a sz).1 hc).1
  cases sz
  · exact Memory.wf_writeWordAt hm ha
  · have := toNat_le_validTop ha
    exact Memory.wf_write hm (by simp [memorySize]; omega)

/-- The reset memory is in canonical form. -/
theorem reset_mem_wf : State.reset.mem.wf = true := rfl

/-! ### Words and their bytes -/

@[simp] theorem lowByte_wordOfBytes (l h : Byte) : lowByte (wordOfBytes l h) = l := by
  apply BitVec.eq_of_getLsbD_eq
  intro i hi
  simp only [lowByte, wordOfBytes, BitVec.getLsbD_setWidth, BitVec.getLsbD_append]
  simp [hi]

@[simp] theorem highByte_wordOfBytes (l h : Byte) : highByte (wordOfBytes l h) = h := by
  apply BitVec.eq_of_getLsbD_eq
  intro i hi
  simp only [highByte, wordOfBytes, BitVec.getLsbD_setWidth, BitVec.getLsbD_ushiftRight, BitVec.getLsbD_append]
  simp [hi]

@[simp] theorem wordOfBytes_low_high (v : Word) : wordOfBytes (lowByte v) (highByte v) = v := by
  apply BitVec.eq_of_getLsbD_eq
  intro i hi
  simp only [wordOfBytes, lowByte, highByte, BitVec.getLsbD_append, BitVec.getLsbD_setWidth, BitVec.getLsbD_ushiftRight]
  by_cases h : i < 8
  · simp [h]
  · have : i - 8 < 8 := by omega
    simp [h, this, show 8 + (i - 8) = i by omega]

/-- A byte of memory after a word write. -/
theorem Memory.read_writeWordAt (m : Memory) (a v : Word) (x : Nat) :
    (m.writeWordAt a v).read x =
      if x = a.toNat + 1 then highByte v else if x = a.toNat then lowByte v else m.read x := by
  simp [Memory.writeWordAt, Memory.read_write]

/-- A word read after a word write to the same address. -/
@[simp] theorem Memory.readWordAt_writeWordAt_self (m : Memory) (a v : Word) : (m.writeWordAt a v).readWordAt a = v := by
  simp [Memory.readWordAt, Memory.read_writeWordAt]

end Sys2Proof.Machine
end

