-- ==== Sys2Proof/Laws/Operands.lean ====
section
/-! SUPPORT. What `resolve`, `commit` and the ends of a step can do, said once. -/

namespace Sys2Proof.Machine

/-! ### Fault plumbing -/

/-- A computation with a second part succeeds exactly when both parts do. -/
theorem except_bind_ok {ε α β : Type} (x : Except ε α) (f : α → Except ε β) (b : β) :
    (x >>= f) = .ok b ↔ ∃ a, x = .ok a ∧ f a = .ok b := by
  cases x <;> simp [bind, Except.bind]

/-- It fails exactly when the first part fails, or the second does after the first. -/
theorem except_bind_error {ε α β : Type} (x : Except ε α) (f : α → Except ε β) (e : ε) :
    (x >>= f) = .error e ↔ x = .error e ∨ ∃ a, x = .ok a ∧ f a = .error e := by
  cases x <;> simp [bind, Except.bind]

theorem load_ok_iff (w : Work) (a : Word) (sz : Size) (v : Word) :
    w.load a sz = .ok v ↔ memRead w.mem a sz = .ok v := by
  unfold Work.load liftAccess
  cases memRead w.mem a sz <;> simp

theorem load_error_iff (w : Work) (a : Word) (sz : Size) (t : Trap) :
    w.load a sz = .error t ↔ ∃ e, memRead w.mem a sz = .error e ∧ t = .access e := by
  unfold Work.load liftAccess
  cases memRead w.mem a sz <;> simp [eq_comm]

theorem store_ok_iff (w w' : Work) (a : Word) (sz : Size) (v : Word) :
    w.store a sz v = .ok w' ↔ ∃ m, memWrite w.mem a sz v = .ok m ∧ w' = { w with mem := m } := by
  unfold Work.store
  cases memWrite w.mem a sz v <;> simp [eq_comm]

/-! ### Resolve -/

/-- The tag of a memory operand (the preamble of R94). -/
theorem memoryTag_eq (sz : Size) (a : Word) :
    memoryTag sz a = if sz = .word then .writeMemoryWord a else .writeMemoryByte a := by
  cases sz <;> rfl

/-- The step of modes 2 and 4 (R91). -/
theorem incStep_eq (sz : Size) : incStep sz = if sz = .word then 2 else 1 := by
  cases sz <;> rfl

/-- The operand is immediate or absolute: mode 2 or 3 with R7 (R97, R99). -/
def isLiteral (o : Operand) : Bool :=
  decide (o.reg = pcReg) && (decide (o.mode = .autoInc) || decide (o.mode = .autoIncDeferred))

/-- The addressing mode writes x[7]: mode 4 or 5 with R7 (R104). -/
def decrementsPc (o : Operand) : Bool :=
  decide (o.reg = pcReg) && (decide (o.mode = .autoDec) || decide (o.mode = .autoDecDeferred))

/-- The addressing mode writes its register: modes 2 and 3 but not with R7, and modes 4 and 5 (R96 to R101). -/
def stepsRegister (o : Operand) : Bool :=
  decide (o.mode = .autoDec) || decide (o.mode = .autoDecDeferred) ||
    (decide (o.reg ≠ pcReg) && (decide (o.mode = .autoInc) || decide (o.mode = .autoIncDeferred)))

/-- Everything a resolve that succeeds does, before the tag is dropped for a source. -/
structure ResolveFacts (sz : Size) (o : Operand) (w : Work) (d : Desc) (w' : Work) : Prop where
  mem : w'.mem = w.mem
  flags : w'.flags = w.flags
  extra : d.extra = extraWords o
  regs : ∀ i, (i = o.reg → stepsRegister o = false) → w'.regs.get i = w.regs.get i
  pcWritten : w'.pcWritten = (w.pcWritten || decrementsPc o)
  direct : o.mode = .register → d.ea = none ∧ d.wb = .writeRegister o.reg ∧ d.value = sized sz (w.regs.get o.reg) ∧ w' = w
  memory : o.mode ≠ .register → ∃ a, d.ea = some a ∧ memRead w.mem a sz = .ok d.value ∧
    d.wb = if isLiteral o then .invalid o.mode o.reg else memoryTag sz a

theorem resolveMode_facts {sz : Size} {o : Operand} {p : Word} {w w' : Work} {d : Desc}
    (h : resolveMode sz o p w = .ok (d, w')) : ResolveFacts sz o w d w' := by
  obtain ⟨mode, reg⟩ := o
  cases mode
  case register =>
    simp only [resolveMode, resolveRegister, Except.ok.injEq, Prod.mk.injEq] at h
    obtain ⟨rfl, rfl⟩ := h
    constructor <;> simp [extraWords, decrementsPc]
  case deferred =>
    simp only [resolveMode, resolveDeferred, except_bind_ok, load_ok_iff, Except.ok.injEq, Prod.mk.injEq] at h
    obtain ⟨v, hv, rfl, rfl⟩ := h
    constructor <;> simp [extraWords, decrementsPc, isLiteral, hv]
  case autoInc =>
    by_cases hr : reg = pcReg
    · subst hr
      simp only [resolveMode, resolveImmediate, if_true, except_bind_ok, load_ok_iff, Except.ok.injEq, Prod.mk.injEq] at h
      obtain ⟨v, hv, rfl, rfl⟩ := h
      constructor <;> simp [extraWords, decrementsPc, isLiteral]
      exact hv
    · simp only [resolveMode, resolveAutoInc, hr, if_false, except_bind_ok, load_ok_iff, Except.ok.injEq,
        Prod.mk.injEq] at h
      obtain ⟨v, hv, rfl, rfl⟩ := h
      constructor <;> simp [extraWords, decrementsPc, isLiteral, stepsRegister, hr, hv, Regs.get_put]
      exact fun i hi he => absurd he hi
  case autoIncDeferred =>
    by_cases hr : reg = pcReg
    · subst hr
      simp only [resolveMode, resolveAbsolute, if_true, except_bind_ok, load_ok_iff, Except.ok.injEq, Prod.mk.injEq] at h
      obtain ⟨a, ha, v, hv, rfl, rfl⟩ := h
      constructor <;> simp [extraWords, decrementsPc, isLiteral, hv]
    · simp only [resolveMode, resolveAutoIncDeferred, hr, if_false, except_bind_ok, load_ok_iff, Except.ok.injEq,
        Prod.mk.injEq] at h
      obtain ⟨a, ha, v, hv, rfl, rfl⟩ := h
      constructor <;> simp [extraWords, decrementsPc, isLiteral, stepsRegister, hr, hv, Regs.get_put]
      exact fun i hi he => absurd he hi
  case autoDec =>
    simp only [resolveMode, resolveAutoDec, except_bind_ok, load_ok_iff, writeReg_mem, Except.ok.injEq, Prod.mk.injEq] at h
    obtain ⟨v, hv, rfl, rfl⟩ := h
    constructor <;> simp [extraWords, decrementsPc, isLiteral, stepsRegister, hv, Regs.get_put]
    exact fun i hi he => absurd he hi
  case autoDecDeferred =>
    simp only [resolveMode, resolveAutoDecDeferred, except_bind_ok, load_ok_iff, writeReg_mem, Except.ok.injEq,
      Prod.mk.injEq] at h
    obtain ⟨a, ha, v, hv, rfl, rfl⟩ := h
    constructor <;> simp [extraWords, decrementsPc, isLiteral, stepsRegister, hv, Regs.get_put]
    exact fun i hi he => absurd he hi
  case indexed =>
    simp only [resolveMode, resolveIndexed, except_bind_ok, load_ok_iff, Except.ok.injEq, Prod.mk.injEq] at h
    obtain ⟨x, hx, v, hv, rfl, rfl⟩ := h
    constructor <;> simp [extraWords, decrementsPc, isLiteral, hv]
  case indexedDeferred =>
    simp only [resolveMode, resolveIndexedDeferred, except_bind_ok, load_ok_iff, Except.ok.injEq, Prod.mk.injEq] at h
    obtain ⟨x, hx, a, ha, v, hv, rfl, rfl⟩ := h
    constructor <;> simp [extraWords, decrementsPc, isLiteral, hv]

/-- `resolve` is the mode's rule, with the tag dropped for a source. -/
theorem resolve_ok_iff {sz : Size} {o : Operand} {p : Word} {asDest : Bool} {w w' : Work} {d : Desc} :
    resolve sz o p asDest w = .ok (d, w') ↔
      ∃ d', resolveMode sz o p w = .ok (d', w') ∧ d = if asDest then d' else { d' with wb := .discard } := by
  unfold resolve
  rcases resolveMode sz o p w with t | ⟨d', w''⟩
  · simp
  · simp only [Except.ok.injEq, Prod.mk.injEq]
    constructor
    · rintro ⟨rfl, rfl⟩; exact ⟨d', ⟨rfl, rfl⟩, rfl⟩
    · rintro ⟨d', ⟨rfl, rfl⟩, rfl⟩; exact ⟨rfl, rfl⟩

/-- A resolve fails only with a failed access: never with InvalidDestination (R107), never with a DecodeFault. -/
theorem resolve_error_access {sz : Size} {o : Operand} {p : Word} {asDest : Bool} {w : Work} {t : Trap}
    (h : resolve sz o p asDest w = .error t) : ∃ e, t = .access e := by
  have h : resolveMode sz o p w = .error t := by
    unfold resolve at h
    rcases hm : resolveMode sz o p w with t' | ⟨d', w''⟩ <;> simp_all
  obtain ⟨mode, reg⟩ := o
  cases mode <;>
    simp only [resolveMode, resolveRegister, resolveDeferred, resolveAutoDec, resolveAutoDecDeferred, resolveIndexed,
      resolveIndexedDeferred, except_bind_error, load_error_iff, reduceCtorEq, and_false, exists_false, or_false] at h
  case deferred => obtain ⟨e, -, rfl⟩ := h; exact ⟨e, rfl⟩
  case autoInc =>
    split at h <;>
      simp only [resolveImmediate, resolveAutoInc, except_bind_error, load_error_iff, reduceCtorEq, and_false,
        exists_false, or_false] at h <;>
      (obtain ⟨e, -, rfl⟩ := h; exact ⟨e, rfl⟩)
  case autoIncDeferred =>
    split at h <;>
      simp only [resolveAbsolute, resolveAutoIncDeferred, except_bind_error, load_error_iff, reduceCtorEq, and_false,
        exists_false, or_false] at h <;>
      (obtain ⟨e, -, rfl⟩ | ⟨a, -, e, -, rfl⟩ := h <;> exact ⟨e, rfl⟩)
  case autoDec => obtain ⟨e, -, rfl⟩ := h; exact ⟨e, rfl⟩
  case autoDecDeferred => obtain ⟨e, -, rfl⟩ | ⟨a, -, e, -, rfl⟩ := h <;> exact ⟨e, rfl⟩
  case indexed => obtain ⟨e, -, rfl⟩ | ⟨a, -, e, -, rfl⟩ := h <;> exact ⟨e, rfl⟩
  case indexedDeferred =>
    obtain ⟨e, -, rfl⟩ | ⟨a, -, ⟨e, -, rfl⟩ | ⟨b, -, e, -, rfl⟩⟩ := h <;> exact ⟨e, rfl⟩

/-! ### Commit -/

/-- Everything a commit that succeeds does (R106): nothing, one register, or the bytes of one memory operand. -/
theorem commit_cases {sz : Size} {wb : WriteBack} {v : Word} {w w' : Work} (h : commit sz wb v w = .ok w') :
    (wb = .discard ∧ w' = w) ∨
      (∃ r, wb = .writeRegister r ∧ w' = w.writeReg r (mergeRegister sz (w.regs.get r) v)) ∨
      (∃ a m, wb = .writeMemoryWord a ∧ memWrite w.mem a .word v = .ok m ∧ w' = { w with mem := m }) ∨
      ∃ a m, wb = .writeMemoryByte a ∧ memWrite w.mem a .byte v = .ok m ∧ w' = { w with mem := m } := by
  cases wb <;> simp only [commit, store_ok_iff, Except.ok.injEq, reduceCtorEq] at h
  case discard => exact .inl ⟨rfl, h.symm⟩
  case writeRegister r => exact .inr (.inl ⟨r, rfl, h.symm⟩)
  case writeMemoryWord a => obtain ⟨m, hm, rfl⟩ := h; exact .inr (.inr (.inl ⟨a, m, rfl, hm, rfl⟩))
  case writeMemoryByte a => obtain ⟨m, hm, rfl⟩ := h; exact .inr (.inr (.inr ⟨a, m, rfl, hm, rfl⟩))

/-- A commit keeps the canonical form of memory. -/
theorem commit_wf {sz : Size} {wb : WriteBack} {v : Word} {w w' : Work} (h : commit sz wb v w = .ok w')
    (hm : w.mem.wf = true) : w'.mem.wf = true := by
  rcases commit_cases h with ⟨-, rfl⟩ | ⟨r, -, rfl⟩ | ⟨a, m, -, hw, rfl⟩ | ⟨a, m, -, hw, rfl⟩
  · exact hm
  · exact hm
  · exact memWrite_wf hm hw
  · exact memWrite_wf hm hw

/-- Everything the end of an ALU instruction does when it succeeds. -/
theorem finishAlu_ok_iff {sz : Size} {wb : WriteBack} {out : Alu} {w w' : Work} :
    finishAlu sz wb out w = .ok w' ↔
      (out.result = none ∧ w' = { w with flags := out.flags }) ∨
        ∃ r w'', out.result = some r ∧ commit sz wb r w = .ok w'' ∧ w' = { w'' with flags := out.flags } := by
  unfold finishAlu
  cases hr : out.result with
  | none => simp [eq_comm]
  | some r => cases hc : commit sz wb r w <;> simp [eq_comm, hc]

/-! ### Whole instructions -/

/-- Everything `runInstr` does: the instruction completes, or its fault is taken. It always answers a next state. -/
theorem runInstr_cases (body : Work → Except Trap (Nat × Work)) (s : State) :
    (∃ extra w, body (Work.ofState s) = .ok (extra, w) ∧ runInstr body s = .next (complete s extra w)) ∨
      ∃ t, body (Work.ofState s) = .error t ∧ runInstr body s = .next (takeFault s t) := by
  unfold runInstr
  rcases body (Work.ofState s) with t | ⟨extra, w⟩
  · exact .inr ⟨t, rfl, rfl⟩
  · exact .inl ⟨extra, w, rfl, rfl⟩

/-- A two-operand instruction whose operands resolve and whose commit succeeds. -/
theorem exec2_ok {sz : Size} {op : Config → Flags → Word → Word → Alu} {src dst : Operand} {s : State} {S D : Desc}
    {w₁ w₂ w₃ : Work} (hS : resolve sz src s.pc false (Work.ofState s) = .ok (S, w₁))
    (hD : resolve sz dst (destPc s.pc S.extra) true w₁ = .ok (D, w₂))
    (hF : finishAlu sz D.wb (op s.config w₂.flags S.value D.value) w₂ = .ok w₃) :
    exec2 sz op src dst s = .next (complete s (S.extra + D.extra) w₃) := by
  simp [exec2, runInstr, hS, hD, hF, bind, Except.bind]

/-- A one-operand instruction whose operand resolves and whose commit succeeds. -/
theorem exec1_ok {sz : Size} {asDest : Bool} {op : Config → Flags → Word → Alu} {o : Operand} {s : State} {O : Desc}
    {w₁ w₂ : Work} (hO : resolve sz o s.pc asDest (Work.ofState s) = .ok (O, w₁))
    (hF : finishAlu sz O.wb (op s.config w₁.flags O.value) w₁ = .ok w₂) :
    exec1 sz asDest op o s = .next (complete s O.extra w₂) := by
  simp [exec1, runInstr, hO, hF, bind, Except.bind]

/-- Everything a two-operand instruction can do. -/
theorem exec2_cases (sz : Size) (op : Config → Flags → Word → Word → Alu) (src dst : Operand) (s : State) :
    (∃ S D w₁ w₂ w₃, resolve sz src s.pc false (Work.ofState s) = .ok (S, w₁) ∧
        resolve sz dst (destPc s.pc S.extra) true w₁ = .ok (D, w₂) ∧
        finishAlu sz D.wb (op s.config w₂.flags S.value D.value) w₂ = .ok w₃ ∧
        exec2 sz op src dst s = .next (complete s (S.extra + D.extra) w₃)) ∨
      ∃ t, exec2 sz op src dst s = .next (takeFault s t) := by
  rcases hS : resolve sz src s.pc false (Work.ofState s) with t | ⟨S, w₁⟩
  · exact .inr ⟨t, by simp [exec2, runInstr, hS, bind, Except.bind]⟩
  rcases hD : resolve sz dst (destPc s.pc S.extra) true w₁ with t | ⟨D, w₂⟩
  · exact .inr ⟨t, by simp [exec2, runInstr, hS, hD, bind, Except.bind]⟩
  rcases hF : finishAlu sz D.wb (op s.config w₂.flags S.value D.value) w₂ with t | w₃
  · exact .inr ⟨t, by simp [exec2, runInstr, hS, hD, hF, bind, Except.bind]⟩
  · exact .inl ⟨S, D, w₁, w₂, w₃, rfl, hD, hF, exec2_ok hS hD hF⟩

/-- Everything a one-operand instruction can do. -/
theorem exec1_cases (sz : Size) (asDest : Bool) (op : Config → Flags → Word → Alu) (o : Operand) (s : State) :
    (∃ O w₁ w₂, resolve sz o s.pc asDest (Work.ofState s) = .ok (O, w₁) ∧
        finishAlu sz O.wb (op s.config w₁.flags O.value) w₁ = .ok w₂ ∧
        exec1 sz asDest op o s = .next (complete s O.extra w₂)) ∨
      ∃ t, exec1 sz asDest op o s = .next (takeFault s t) := by
  rcases hO : resolve sz o s.pc asDest (Work.ofState s) with t | ⟨O, w₁⟩
  · exact .inr ⟨t, by simp [exec1, runInstr, hO, bind, Except.bind]⟩
  rcases hF : finishAlu sz O.wb (op s.config w₁.flags O.value) w₁ with t | w₂
  · exact .inr ⟨t, by simp [exec1, runInstr, hO, hF, bind, Except.bind]⟩
  · exact .inl ⟨O, w₁, w₂, rfl, hF, exec1_ok hO hF⟩

end Sys2Proof.Machine
end

