-- ==== Sys2Proof/Laws/PerInstr.lean ====
section
/-! SUPPORT. The encoding of every instruction carries the fixed bits of its row of spec/opcode_table.json. -/

namespace Sys2Proof

theorem Mode.code_lt (m : Mode) : m.code < 8 := by cases m <;> decide

theorem Operand.code_lt (o : Operand) : o.code < 64 := by
  have := o.mode.code_lt
  have := o.reg.isLt
  simp only [Operand.code]
  omega

namespace Laws

theorem field_encodeTwo (opcode : Nat) (src dst : Operand) (h : opcode < 16) :
    field (encodeTwo opcode src dst) 15 12 = opcode := by
  have := src.code_lt
  have := dst.code_lt
  simp only [field, encodeTwo, BitVec.toNat_ofNat]
  omega

theorem field_encodeOne (sizeBit op9 : Nat) (o : Operand) (h : sizeBit < 2) (h9 : op9 < 512) :
    field (encodeOne sizeBit op9 o) 15 6 = sizeBit * 512 + op9 := by
  have := o.code_lt
  simp only [field, encodeOne, BitVec.toNat_ofNat]
  omega

theorem field_encodeBranch (code : Nat) (disp : Int) (h : code < 256) : field (encodeBranch code disp) 15 8 = code := by
  have : (disp % 0x100).toNat < 0x100 := by omega
  simp only [field, encodeBranch, BitVec.toNat_ofNat]
  omega

namespace OpcodeRow

/-- The lowest fixed bit of the instruction's row, and the number its fixed bits spell from bit 15 down to it (the table's
"fixed"). -/
def row : Instr → Nat × Nat
  | .mov _ _ => (12, 1)
  | .cmp _ _ => (12, 2)
  | .bit _ _ => (12, 3)
  | .bic _ _ => (12, 4)
  | .bis _ _ => (12, 5)
  | .add _ _ => (12, 6)
  | .movb _ _ => (12, 9)
  | .cmpb _ _ => (12, 10)
  | .bitb _ _ => (12, 11)
  | .bicb _ _ => (12, 12)
  | .bisb _ _ => (12, 13)
  | .sub _ _ => (12, 14)
  | .clr _ => (6, 40)
  | .com _ => (6, 41)
  | .inc _ => (6, 42)
  | .dec _ => (6, 43)
  | .neg _ => (6, 44)
  | .tst _ => (6, 47)
  | .asr _ => (6, 50)
  | .asl _ => (6, 51)
  | .clrb _ => (6, 552)
  | .comb _ => (6, 553)
  | .incb _ => (6, 554)
  | .decb _ => (6, 555)
  | .negb _ => (6, 556)
  | .tstb _ => (6, 559)
  | .asrb _ => (6, 562)
  | .aslb _ => (6, 563)
  | .mtps _ => (6, 564)
  | .mfps _ => (6, 567)
  | .br _ => (8, 1)
  | .bne _ => (8, 2)
  | .beq _ => (8, 3)
  | .bpl _ => (8, 128)
  | .bmi _ => (8, 129)
  | .jmp _ => (6, 1)
  | .halt => (0, 0)

/-- The fixed bits of the row stand in the encoding. -/
def Statement (i : Instr) : Prop := i.wellFormed = true → field (encode i) 15 (row i).1 = (row i).2

theorem mov (src dst : Operand) : Statement (.mov src dst) := fun _ => field_encodeTwo 1 src dst (by decide)
theorem cmp (src dst : Operand) : Statement (.cmp src dst) := fun _ => field_encodeTwo 2 src dst (by decide)
theorem bit (src dst : Operand) : Statement (.bit src dst) := fun _ => field_encodeTwo 3 src dst (by decide)
theorem bic (src dst : Operand) : Statement (.bic src dst) := fun _ => field_encodeTwo 4 src dst (by decide)
theorem bis (src dst : Operand) : Statement (.bis src dst) := fun _ => field_encodeTwo 5 src dst (by decide)
theorem add (src dst : Operand) : Statement (.add src dst) := fun _ => field_encodeTwo 6 src dst (by decide)
theorem movb (src dst : Operand) : Statement (.movb src dst) := fun _ => field_encodeTwo 9 src dst (by decide)
theorem cmpb (src dst : Operand) : Statement (.cmpb src dst) := fun _ => field_encodeTwo 10 src dst (by decide)
theorem bitb (src dst : Operand) : Statement (.bitb src dst) := fun _ => field_encodeTwo 11 src dst (by decide)
theorem bicb (src dst : Operand) : Statement (.bicb src dst) := fun _ => field_encodeTwo 12 src dst (by decide)
theorem bisb (src dst : Operand) : Statement (.bisb src dst) := fun _ => field_encodeTwo 13 src dst (by decide)
theorem sub (src dst : Operand) : Statement (.sub src dst) := fun _ => field_encodeTwo 14 src dst (by decide)
theorem clr (dst : Operand) : Statement (.clr dst) := fun _ => field_encodeOne 0 0o050 dst (by decide) (by decide)
theorem com (dst : Operand) : Statement (.com dst) := fun _ => field_encodeOne 0 0o051 dst (by decide) (by decide)
theorem inc (dst : Operand) : Statement (.inc dst) := fun _ => field_encodeOne 0 0o052 dst (by decide) (by decide)
theorem dec (dst : Operand) : Statement (.dec dst) := fun _ => field_encodeOne 0 0o053 dst (by decide) (by decide)
theorem neg (dst : Operand) : Statement (.neg dst) := fun _ => field_encodeOne 0 0o054 dst (by decide) (by decide)
theorem tst (src : Operand) : Statement (.tst src) := fun _ => field_encodeOne 0 0o057 src (by decide) (by decide)
theorem asr (dst : Operand) : Statement (.asr dst) := fun _ => field_encodeOne 0 0o062 dst (by decide) (by decide)
theorem asl (dst : Operand) : Statement (.asl dst) := fun _ => field_encodeOne 0 0o063 dst (by decide) (by decide)
theorem clrb (dst : Operand) : Statement (.clrb dst) := fun _ => field_encodeOne 1 0o050 dst (by decide) (by decide)
theorem comb (dst : Operand) : Statement (.comb dst) := fun _ => field_encodeOne 1 0o051 dst (by decide) (by decide)
theorem incb (dst : Operand) : Statement (.incb dst) := fun _ => field_encodeOne 1 0o052 dst (by decide) (by decide)
theorem decb (dst : Operand) : Statement (.decb dst) := fun _ => field_encodeOne 1 0o053 dst (by decide) (by decide)
theorem negb (dst : Operand) : Statement (.negb dst) := fun _ => field_encodeOne 1 0o054 dst (by decide) (by decide)
theorem tstb (src : Operand) : Statement (.tstb src) := fun _ => field_encodeOne 1 0o057 src (by decide) (by decide)
theorem asrb (dst : Operand) : Statement (.asrb dst) := fun _ => field_encodeOne 1 0o062 dst (by decide) (by decide)
theorem aslb (dst : Operand) : Statement (.aslb dst) := fun _ => field_encodeOne 1 0o063 dst (by decide) (by decide)
theorem mtps (src : Operand) : Statement (.mtps src) := fun _ => field_encodeOne 1 0o064 src (by decide) (by decide)
theorem mfps (dst : Operand) : Statement (.mfps dst) := fun _ => field_encodeOne 1 0o067 dst (by decide) (by decide)
theorem br (disp : Int) : Statement (.br disp) := fun _ => field_encodeBranch 1 disp (by decide)
theorem bne (disp : Int) : Statement (.bne disp) := fun _ => field_encodeBranch 2 disp (by decide)
theorem beq (disp : Int) : Statement (.beq disp) := fun _ => field_encodeBranch 3 disp (by decide)
theorem bpl (disp : Int) : Statement (.bpl disp) := fun _ => field_encodeBranch 128 disp (by decide)
theorem bmi (disp : Int) : Statement (.bmi disp) := fun _ => field_encodeBranch 129 disp (by decide)
theorem jmp (dst : Operand) : Statement (.jmp dst) := fun _ => field_encodeOne 0 0o001 dst (by decide) (by decide)
theorem halt : Statement .halt := fun _ => by decide

end OpcodeRow

end Laws

end Sys2Proof
end

