-- ==== Sys2Proof/Laws/Step.lean ====
section
/-! SUPPORT. What the destination of an instruction can do, and the five ways one step of the loop goes. -/

namespace Sys2Proof.Machine

/-! ### Destinations -/

/-- A resolve changes neither the flags nor memory. -/
theorem resolve_flags_mem {sz : Size} {o : Operand} {p : Word} {asDest : Bool} {w w' : Work} {d : Desc}
    (h : resolve sz o p asDest w = .ok (d, w')) : w'.flags = w.flags ∧ w'.mem = w.mem := by
  obtain ⟨d', h1, -⟩ := resolve_ok_iff.1 h
  exact ⟨(resolveMode_facts h1).flags, (resolveMode_facts h1).mem⟩

/-- What a destination's resolve does. -/
theorem resolve_dest_facts {sz : Size} {o : Operand} {p : Word} {w w' : Work} {d : Desc}
    (h : resolve sz o p true w = .ok (d, w')) : ResolveFacts sz o w d w' := by
  obtain ⟨d', h1, h2⟩ := resolve_ok_iff.1 h
  simp only [if_true] at h2
  subst h2
  exact resolveMode_facts h1

/-- A literal operand is one that cannot be written. -/
theorem isLiteral_iff (o : Operand) : isLiteral o = true ↔ ¬Writable o := by
  unfold isLiteral Writable
  simp only [Bool.and_eq_true, Bool.or_eq_true, decide_eq_true_eq, not_not]
  rfl

/-- What could be read at an address can be written there at the same size. -/
theorem memWrite_of_memRead {m : Memory} {a u v : Word} {sz : Size} (h : memRead m a sz = .ok v) :
    ∃ m', memWrite m a sz u = .ok m' :=
  ⟨_, (memWrite_ok_iff ..).2 ⟨((memRead_ok_iff ..).1 h).1, rfl⟩⟩

/-- A commit to a destination that resolved and can be written never fails, and writes no flag. -/
theorem commit_of_writable {sz sz' : Size} {o : Operand} {p v : Word} {w w' : Work} {d : Desc}
    (h : resolve sz o p true w = .ok (d, w')) (hw : Writable o) :
    ∃ w'', commit sz' d.wb v w' = .ok w'' ∧ w''.flags = w'.flags := by
  have f := resolve_dest_facts h
  by_cases hm : o.mode = .register
  · rw [(f.direct hm).2.1]
    exact ⟨_, rfl, rfl⟩
  · obtain ⟨a, -, h2, h3⟩ := f.memory hm
    have hl : isLiteral o = false := by
      cases hl : isLiteral o
      · rfl
      · exact absurd hw ((isLiteral_iff o).1 hl)
    rw [hl] at h3
    simp only [Bool.false_eq_true, if_false] at h3
    obtain ⟨m', hm'⟩ := memWrite_of_memRead (u := v) h2
    rw [← f.mem] at hm'
    rw [h3]
    cases sz <;> simp only [memoryTag, commit, Work.store, hm'] <;> exact ⟨_, rfl, rfl⟩

/-- A commit to a literal destination is InvalidDestination (40_addressing_modes.md R107). -/
theorem commit_of_not_writable {sz : Size} {o : Operand} {p : Word} {w w' : Work} {d : Desc}
    (h : resolve sz o p true w = .ok (d, w')) (hw : ¬Writable o) (sz' : Size) (v : Word) :
    commit sz' d.wb v w' = .error (.invalidDestination o.mode o.reg) := by
  have hl := (isLiteral_iff o).2 hw
  have hm : o.mode ≠ .register := by
    intro h; simp [isLiteral, h] at hl
  obtain ⟨a, -, -, h3⟩ := (resolve_dest_facts h).memory hm
  rw [hl] at h3
  simp only [if_true] at h3
  rw [h3]
  rfl

/-! ### One step of the loop -/

/-- Everything a step of the loop does, in the order of its checks (44_execution_loop.md R213). -/
theorem runStep_cases (s : State) :
    (∃ e, fetch s = .error e ∧ runStep s = .next (stopFetchFault s e)) ∨
    (fetch s = .ok 0 ∧ runStep s = .next (stopRun s .halted)) ∨
    (∃ W, fetch s = .ok W ∧ W ≠ 0 ∧ s.steps = s.config.stepLimit ∧ runStep s = .next (stopStepCeiling s)) ∨
    (∃ W i, fetch s = .ok W ∧ W ≠ 0 ∧ s.steps ≠ s.config.stepLimit ∧ decodeWord W = .ok i ∧
      runStep s = exec i (countStep s)) ∨
    ∃ W e, fetch s = .ok W ∧ W ≠ 0 ∧ s.steps ≠ s.config.stepLimit ∧ decodeWord W = .error e ∧
      runStep s = .next (takeFault (countStep s) (.decodeFault W)) := by
  unfold runStep
  rcases fetch s with e | W
  · exact .inl ⟨e, rfl, rfl⟩
  by_cases h0 : W = 0
  · subst h0; exact .inr (.inl ⟨rfl, rfl⟩)
  by_cases hs : s.steps = s.config.stepLimit
  · exact .inr (.inr (.inl ⟨W, rfl, h0, hs, by simp only [if_neg h0, if_pos hs]⟩))
  rcases hd : decodeWord W with e | i
  · exact .inr (.inr (.inr (.inr ⟨W, e, rfl, h0, hs, hd, by simp only [if_neg h0, if_neg hs, hd]⟩)))
  · exact .inr (.inr (.inr (.inl ⟨W, i, rfl, h0, hs, hd, by simp only [if_neg h0, if_neg hs, hd]⟩)))

/-! ### Placing words in memory -/

/-- Laying words out from an even address keeps the canonical form. -/
theorem storeWords_wf (ws : List Word) {m : Memory} {a : Word} (hm : m.wf = true) (ha : a.toNat % 2 = 0) :
    (storeWords m a ws).wf = true := by
  induction ws generalizing m a with
  | nil => exact hm
  | cons v rest ih =>
    have hlt := a.isLt
    refine ih (Memory.wf_write (Memory.wf_write hm ?_) ?_) ?_
    · simp only [memorySize]; omega
    · simp only [memorySize]; omega
    · rw [BitVec.toNat_add, show (2 : Word).toNat = 2 from rfl]; omega

end Sys2Proof.Machine
end

