-- ==== Sys2Proof/Tests/Slice0.lean ====
section
/-! SUPPORT. Small tests. Every expected value is the spec's: a word written out from its encoding in 30_encoding.md, or a
row of 95_test_vectors.md, named in the theorem's name (test_T1 is its row T1). After them, for every statement with
hypotheses, a concrete state and operands that meet them. -/

open Sys2Proof Sys2Proof.Machine

namespace Sys2Proof.Tests

/-! ### WellFormed -/

theorem test_wellFormed_br : (Instr.br 128).wellFormed = false ∧ (Instr.br (-129)).wellFormed = false ∧
    (Instr.br 127).wellFormed = true ∧ (Instr.br (-128)).wellFormed = true := by decide
theorem test_wellFormed_bne : (Instr.bne 128).wellFormed = false ∧ (Instr.bne (-129)).wellFormed = false := by decide
theorem test_wellFormed_beq : (Instr.beq 128).wellFormed = false ∧ (Instr.beq (-129)).wellFormed = false := by decide
theorem test_wellFormed_bpl : (Instr.bpl 128).wellFormed = false ∧ (Instr.bpl (-129)).wellFormed = false := by decide
theorem test_wellFormed_bmi : (Instr.bmi 128).wellFormed = false ∧ (Instr.bmi (-129)).wellFormed = false := by decide

/-! ### Decoding: one word per constructor, bit by bit -/

-- opcode, source mode, source register, destination mode, destination register (R62, R68)
theorem test_decode_mov : decodeWord 0b0001_010_001_011_110#16 = .ok (.mov ⟨.autoInc, 1⟩ ⟨.autoIncDeferred, 6⟩) := by decide
theorem test_decode_cmp : decodeWord 0b0010_000_001_111_010#16 = .ok (.cmp ⟨.register, 1⟩ ⟨.indexedDeferred, 2⟩) := by decide
theorem test_decode_bit : decodeWord 0b0011_001_011_100_101#16 = .ok (.bit ⟨.deferred, 3⟩ ⟨.autoDec, 5⟩) := by decide
theorem test_decode_bic : decodeWord 0b0100_101_100_000_010#16 = .ok (.bic ⟨.autoDecDeferred, 4⟩ ⟨.register, 2⟩) := by decide
theorem test_decode_bis : decodeWord 0b0101_110_000_001_010#16 = .ok (.bis ⟨.indexed, 0⟩ ⟨.deferred, 2⟩) := by decide
theorem test_decode_add : decodeWord 0b0110_000_001_000_010#16 = .ok (.add ⟨.register, 1⟩ ⟨.register, 2⟩) := by decide
theorem test_decode_movb : decodeWord 0b1001_010_001_100_010#16 = .ok (.movb ⟨.autoInc, 1⟩ ⟨.autoDec, 2⟩) := by decide
theorem test_decode_cmpb : decodeWord 0b1010_010_111_000_010#16 = .ok (.cmpb ⟨.autoInc, 7⟩ ⟨.register, 2⟩) := by decide
theorem test_decode_bitb : decodeWord 0b1011_000_001_110_111#16 = .ok (.bitb ⟨.register, 1⟩ ⟨.indexed, 7⟩) := by decide
theorem test_decode_bicb : decodeWord 0b1100_000_101_000_010#16 = .ok (.bicb ⟨.register, 5⟩ ⟨.register, 2⟩) := by decide
theorem test_decode_bisb : decodeWord 0b1101_000_001_001_010#16 = .ok (.bisb ⟨.register, 1⟩ ⟨.deferred, 2⟩) := by decide
theorem test_decode_sub : decodeWord 0b1110_000_001_000_010#16 = .ok (.sub ⟨.register, 1⟩ ⟨.register, 2⟩) := by decide
-- size bit, op9, mode, register (R63, R69 to R71)
theorem test_decode_clr : decodeWord 0b0_000_101_000_000_011#16 = .ok (.clr ⟨.register, 3⟩) := by decide
theorem test_decode_com : decodeWord 0b0_000_101_001_001_000#16 = .ok (.com ⟨.deferred, 0⟩) := by decide
theorem test_decode_inc : decodeWord 0b0_000_101_010_010_001#16 = .ok (.inc ⟨.autoInc, 1⟩) := by decide
theorem test_decode_dec : decodeWord 0b0_000_101_011_011_010#16 = .ok (.dec ⟨.autoIncDeferred, 2⟩) := by decide
theorem test_decode_neg : decodeWord 0b0_000_101_100_100_011#16 = .ok (.neg ⟨.autoDec, 3⟩) := by decide
theorem test_decode_tst : decodeWord 0b0_000_101_111_101_100#16 = .ok (.tst ⟨.autoDecDeferred, 4⟩) := by decide
theorem test_decode_asr : decodeWord 0b0_000_110_010_110_101#16 = .ok (.asr ⟨.indexed, 5⟩) := by decide
theorem test_decode_asl : decodeWord 0b0_000_110_011_111_110#16 = .ok (.asl ⟨.indexedDeferred, 6⟩) := by decide
theorem test_decode_clrb : decodeWord 0b1_000_101_000_000_011#16 = .ok (.clrb ⟨.register, 3⟩) := by decide
theorem test_decode_comb : decodeWord 0b1_000_101_001_001_000#16 = .ok (.comb ⟨.deferred, 0⟩) := by decide
theorem test_decode_incb : decodeWord 0b1_000_101_010_010_001#16 = .ok (.incb ⟨.autoInc, 1⟩) := by decide
theorem test_decode_decb : decodeWord 0b1_000_101_011_011_010#16 = .ok (.decb ⟨.autoIncDeferred, 2⟩) := by decide
theorem test_decode_negb : decodeWord 0b1_000_101_100_100_011#16 = .ok (.negb ⟨.autoDec, 3⟩) := by decide
theorem test_decode_tstb : decodeWord 0b1_000_101_111_111_111#16 = .ok (.tstb ⟨.indexedDeferred, 7⟩) := by decide
theorem test_decode_asrb : decodeWord 0b1_000_110_010_110_101#16 = .ok (.asrb ⟨.indexed, 5⟩) := by decide
theorem test_decode_aslb : decodeWord 0b1_000_110_011_111_110#16 = .ok (.aslb ⟨.indexedDeferred, 6⟩) := by decide
theorem test_decode_mtps : decodeWord 0b1_000_110_100_010_111#16 = .ok (.mtps ⟨.autoInc, 7⟩) := by decide
theorem test_decode_mfps : decodeWord 0b1_000_110_111_001_001#16 = .ok (.mfps ⟨.deferred, 1⟩) := by decide
-- code, displacement (R64, R72)
theorem test_decode_br : decodeWord 0b00000001_10000000#16 = .ok (.br (-128)) := by decide
theorem test_decode_bne : decodeWord 0b00000010_11111101#16 = .ok (.bne (-3)) := by decide
theorem test_decode_beq : decodeWord 0b00000011_01111111#16 = .ok (.beq 127) := by decide
theorem test_decode_bpl : decodeWord 0b10000000_11111110#16 = .ok (.bpl (-2)) := by decide
theorem test_decode_bmi : decodeWord 0b10000001_00000010#16 = .ok (.bmi 2) := by decide
-- ten fixed bits, mode, register (R65, R73)
theorem test_decode_jmp : decodeWord 0b0000000001_110_111#16 = .ok (.jmp ⟨.indexed, 7⟩) := by decide
theorem test_decode_halt : decodeWord 0#16 = .ok .halt := by decide

/-- Words around the windows (rows DV2, DV3, DV10, DV11, DV18, DV26, DV32, DV38, DV51). -/
theorem test_decode_unknown :
    [0o000001#16, 0o000077#16, 0o000200#16, 0o000377#16, 0o002000#16, 0o006400#16, 0o070000#16, 0o101000#16,
      0o170000#16].all (fun W => decide (decodeWord W = .error (.unknown W))) = true := by decide

/-- The low byte stands first, and the bytes after the opcode word are given back; one byte is no word. -/
theorem test_decode_bytes : decode [0o003, 0o012, 0o777] = .ok (.clr ⟨.register, 3⟩, [0o777]) ∧
    decode [0o003] = .error .tooShort := by decide

/-- The table's numbering: CLR R3 is 005003. -/
theorem test_decodeTableWord : decodeTableWord 16 0o005003 = some (.clr ⟨.register, 3⟩) ∧
    decodeTableWord 16 0o070000 = none := by decide

/-- The same instructions encode to the words of the vectors. -/
theorem test_encode : encode (.movb ⟨.autoInc, 1⟩ ⟨.autoDec, 2⟩) = 0o112142 ∧ encode (.mfps ⟨.deferred, 1⟩) = 0o106711 ∧
    encode (.bne (-3)) = 0o001375 ∧ encode (.jmp ⟨.indexed, 7⟩) = 0o000167 := by decide

/-! ### One step each

`start` is a run about to begin at 001000, as 95_test_vectors.md sets it up, and `look` what a row says of its end: one
register, the packed PSW and x[7]. -/

def start (words : List Word) (regs : List (RegNum × Word)) (mem : List (Word × Word)) (psw : Byte) : State :=
  startRun { State.reset with
    regs := regs.foldl (fun x r => x.put r.1 r.2) State.reset.regs
    mem := mem.foldl (fun m c => m.writeWordAt c.1 c.2) (storeWords [] 0o1000 words)
    flags := Flags.unpack psw } 0o1000

/-- The same with the two open parameters at their other values. -/
def computed (s : State) : State := { s with config := ⟨1000, .computed, .zeroExtend⟩ }

def stepped (s : State) : State :=
  match step s with
  | .next t => t
  | _ => s

def look (s : State) (r : RegNum) : Word × Byte × Word := (s.regs.get r, s.flags.pack, s.pc)

def lookMem (s : State) (a : Word) : Word × Byte × Word := (s.mem.readWordAt a, s.flags.pack, s.pc)

-- two-operand
theorem test_A3_mov_autoInc :
    let t := stepped (start [0o012102] [(1, 0o2000)] [(0o2000, 0o123456)] 0)
    look t 2 = (0o123456, 0o010, 0o1002) ∧ t.regs.get 1 = 0o2002 := by decide
theorem test_A19_mov_immediate_to_indexed :
    lookMem (stepped (start [0o012761, 5, 0o10] [(1, 0o2000)] [] 0)) 0o2010 = (5, 0, 0o1006) := by decide
theorem test_T17_movb_register : look (stepped (start [0o110102] [(1, 0o200), (2, 0o177777)] [] 0)) 2 = (0o177600, 0o011, 0o1002) := by decide
theorem test_T18_movb_memory :
    lookMem (stepped (start [0o110112] [(1, 0o377), (2, 0o2001)] [(0o2000, 0o1234)] 0)) 0o2000 = (0o177634, 0o011, 0o1002) := by decide
theorem test_T2_add : look (stepped (start [0o060102] [(1, 0o100000), (2, 0o100000)] [] 0)) 2 = (0, 0o007, 0o1002) := by decide
theorem test_T4_add : look (stepped (start [0o060102] [(1, 0o077777), (2, 1)] [] 0)) 2 = (0o100000, 0o012, 0o1002) := by decide
theorem test_T5_sub : look (stepped (start [0o160102] [(1, 1), (2, 0o100000)] [] 0)) 2 = (0o077777, 0o002, 0o1002) := by decide
theorem test_T8_sub : look (stepped (start [0o160102] [(1, 1), (2, 0)] [] 0)) 2 = (0o177777, 0o011, 0o1002) := by decide
theorem test_T9_cmp : look (stepped (start [0o020102] [(1, 1), (2, 0o100000)] [] 0o002)) 2 = (0o100000, 0o002, 0o1002) := by decide
theorem test_T10_cmp : look (stepped (computed (start [0o020102] [(1, 1), (2, 0o100000)] [] 0))) 2 = (0o100000, 0o002, 0o1002) := by decide
theorem test_T13_cmpb : look (stepped (computed (start [0o120102] [(1, 1), (2, 0o200)] [] 0))) 2 = (0o200, 0o002, 0o1002) := by decide
theorem test_T14_cmpb : look (stepped (start [0o120102] [(1, 0o401), (2, 1)] [] 0)) 2 = (1, 0o004, 0o1002) := by decide
theorem test_T20_bit : look (stepped (start [0o030102] [(1, 0o17), (2, 0o360)] [] 0o001)) 2 = (0o360, 0o005, 0o1002) := by decide
theorem test_T21_bitb : look (stepped (start [0o130102] [(1, 0o400), (2, 0o400)] [] 0o003)) 2 = (0o400, 0o005, 0o1002) := by decide
theorem test_T22_bic : look (stepped (start [0o040102] [(1, 0o177777), (2, 0o177777)] [] 0o003)) 2 = (0, 0o007, 0o1002) := by decide
theorem test_T23_bic : look (stepped (computed (start [0o040102] [(1, 0o177777), (2, 0o177777)] [] 0o003))) 2 = (0, 0o005, 0o1002) := by decide
theorem test_T24_bicb : look (stepped (start [0o140102] [(1, 0o377), (2, 0o177777)] [] 0)) 2 = (0o177400, 0o004, 0o1002) := by decide
theorem test_T25_bis : look (stepped (start [0o050102] [] [] 0o013)) 2 = (0, 0o007, 0o1002) := by decide
theorem test_T26_bisb : look (stepped (start [0o150102] [(1, 0o200), (2, 1)] [] 0)) 2 = (0o201, 0o010, 0o1002) := by decide
-- one-operand
theorem test_O27_clr : look (stepped (start [0o005000] [(0, 0o1234)] [] 0o033)) 0 = (0, 0o024, 0o1002) := by decide
theorem test_L1_6_clrb :
    let t := stepped (start [0o105021] [(1, 0o2001)] [(0o2000, 0o177777)] 0)
    lookMem t 0o2000 = (0o377, 0o004, 0o1002) ∧ t.regs.get 1 = 0o2002 := by decide
theorem test_O15_com : look (stepped (start [0o005100] [(0, 0o125252)] [] 0o002)) 0 = (0o052525, 0o003, 0o1002) := by decide
theorem test_O16_com : look (stepped (computed (start [0o005100] [(0, 0o125252)] [] 0o002))) 0 = (0o052525, 0o001, 0o1002) := by decide
theorem test_O17_comb : look (stepped (start [0o105100] [(0, 0o377)] [] 0)) 0 = (0, 0o005, 0o1002) := by decide
theorem test_O1_inc : look (stepped (start [0o005200] [(0, 0o177777)] [] 0)) 0 = (0, 0o005, 0o1002) := by decide
theorem test_O2_inc : look (stepped (start [0o005200] [(0, 0o077777)] [] 0)) 0 = (0o100000, 0o012, 0o1002) := by decide
theorem test_O3_incb : look (stepped (start [0o105200] [(0, 0o177)] [] 0)) 0 = (0o200, 0o012, 0o1002) := by decide
theorem test_O4_incb : look (stepped (start [0o105200] [(0, 0o377)] [] 0)) 0 = (0, 0o005, 0o1002) := by decide
theorem test_O5_dec : look (stepped (start [0o005300] [(0, 0o100000)] [] 0)) 0 = (0o077777, 0o002, 0o1002) := by decide
theorem test_O7_dec : look (stepped (start [0o005300] [] [] 0)) 0 = (0o177777, 0o011, 0o1002) := by decide
theorem test_O8_decb : look (stepped (start [0o105300] [(0, 0o1000)] [] 0)) 0 = (0o1377, 0o011, 0o1002) := by decide
theorem test_O9_decb : look (stepped (start [0o105300] [(0, 0o200)] [] 0)) 0 = (0o177, 0o002, 0o1002) := by decide
theorem test_O10_neg : look (stepped (start [0o005400] [] [] 0o017)) 0 = (0, 0o004, 0o1002) := by decide
theorem test_O12_neg : look (stepped (start [0o005400] [(0, 0o100000)] [] 0)) 0 = (0o100000, 0o013, 0o1002) := by decide
theorem test_O13_negb : look (stepped (start [0o105400] [(0, 0o177600)] [] 0)) 0 = (0o177600, 0o013, 0o1002) := by decide
theorem test_O14_negb : look (stepped (start [0o105400] [(0, 1)] [] 0)) 0 = (0o377, 0o011, 0o1002) := by decide
theorem test_O25_tst : look (stepped (start [0o005700] [] [] 0o013)) 0 = (0, 0o004, 0o1002) := by decide
theorem test_A31_tst_absolute :
    lookMem (stepped (start [0o005737, 0o2000] [] [(0o2000, 0o100000)] 0)) 0o2000 = (0o100000, 0o010, 0o1004) := by decide
theorem test_O26_tstb : look (stepped (start [0o105711] [(1, 0o2001)] [(0o2000, 0o100000)] 0o003)) 1 = (0o2001, 0o010, 0o1002) := by decide
theorem test_O19_asr : look (stepped (computed (start [0o006200] [(0, 1)] [] 0))) 0 = (0, 0o007, 0o1002) := by decide
theorem test_O20_asr : look (stepped (start [0o006200] [(0, 0o100001)] [] 0)) 0 = (0o140000, 0o011, 0o1002) := by decide
theorem test_O21_asrb : look (stepped (start [0o106200] [(0, 0o200)] [] 0)) 0 = (0o300, 0o010, 0o1002) := by decide
theorem test_O22_asl : look (stepped (start [0o006300] [(0, 0o100000)] [] 0)) 0 = (0, 0o005, 0o1002) := by decide
theorem test_O23_asl : look (stepped (computed (start [0o006300] [(0, 0o040000)] [] 0))) 0 = (0o100000, 0o012, 0o1002) := by decide
theorem test_O24_aslb : look (stepped (start [0o106300] [(0, 0o177600)] [] 0)) 0 = (0o177400, 0o005, 0o1002) := by decide
theorem test_O30_mtps : look (stepped (start [0o106400] [(0, 0o340)] [] 0o037)) 0 = (0o340, 0, 0o1002) := by decide
theorem test_O32_mtps_immediate : look (stepped (start [0o106427, 0o20] [] [] 0)) 0 = (0, 0o020, 0o1004) := by decide
theorem test_O33_mfps : look (stepped (start [0o106700] [(0, 0o177777)] [] 0o011)) 0 = (0o177411, 0o011, 0o1002) := by decide
theorem test_O34_mfps : look (stepped (computed (start [0o106700] [(0, 0o177777)] [] 0o011))) 0 = (0o000011, 0o011, 0o1002) := by decide
-- branches, jump, halt
theorem test_B4_br : look (stepped (start [0o000600] [] [] 0o037)) 0 = (0, 0o037, 0o402) := by decide
theorem test_B8_bne : look (stepped (start [0o001002] [] [] 0o010)) 0 = (0, 0o010, 0o1006) := by decide
theorem test_B9_bne : look (stepped (start [0o001002] [] [] 0o004)) 0 = (0, 0o004, 0o1002) := by decide
theorem test_B10_beq : look (stepped (start [0o001402] [] [] 0o004)) 0 = (0, 0o004, 0o1006) := by decide
theorem test_B11_beq : look (stepped (start [0o001402] [] [] 0)) 0 = (0, 0, 0o1002) := by decide
theorem test_B12_bpl : look (stepped (start [0o100002] [] [] 0o007)) 0 = (0, 0o007, 0o1006) := by decide
theorem test_B13_bmi : look (stepped (start [0o100402] [] [] 0o010)) 0 = (0, 0o010, 0o1006) := by decide
theorem test_B14_bmi : look (stepped (start [0o100402] [] [] 0o007)) 0 = (0, 0o007, 0o1002) := by decide
theorem test_J3_jmp : look (stepped (start [0o000131] [(1, 0o2000)] [(0o2000, 0o3000)] 0)) 1 = (0o2002, 0, 0o3000) := by decide
theorem test_J17_jmp_rolled_back :
    let t := stepped (start [0o000131] [(1, 0o2000)] [(0o2000, 0o3001)] 0)
    look t 1 = (0o2000, 0, 0o1002) ∧ t.faultLog = [.access .oddAddress 0o1000 0o3001] := by decide
theorem test_E1_halt :
    let t := stepped (start [0] [] [] 0)
    t.fsm = .idle ∧ t.pc = 0o1000 ∧ t.replies = [.run ⟨.halted, [], 0⟩] := by decide
-- faults
theorem test_A27_destination_fault_rolled_back :
    let t := stepped (start [0o012112] [(1, 0o2000), (2, 0o3001)] [] 0)
    look t 1 = (0o2000, 0, 0o1002) ∧ t.faultLog = [.access .oddAddress 0o1000 0o3001] := by decide
theorem test_A28_invalid_destination :
    let t := stepped (start [0o012137, 0o2000] [(1, 0o3000)] [] 0o017)
    look t 1 = (0o3000, 0o017, 0o1002) ∧ t.faultLog = [.invalidDestination 0o1000 .autoIncDeferred 7] := by decide
theorem test_U1_unknown_word :
    let t := stepped (start [1] [] [] 0o017)
    look t 0 = (0, 0o017, 0o1002) ∧ t.faultLog = [.decodeFault 0o1000 1] ∧ t.steps = 1 := by decide
theorem test_E4_step_ceiling :
    let t := stepped { start [0o000777] [] [] 0 with config := ⟨0, .unchanged, .preserveHigh⟩ }
    t.fsm = .idle ∧ t.pc = 0o1000 ∧ t.replies = [.run ⟨.stepCeilingAbort, [.stepCeilingAbort 0o1000], 0⟩] := by decide
theorem test_E8_fetch_fault :
    let t := stepped (startRun State.reset 0o160000)
    t.fsm = .idle ∧ t.pc = 0o160000 ∧
      t.replies = [.run ⟨.fetchFault, [.fetchFault 0o160000 .busFault 0o160000], 0⟩] := by decide
/-- The first step after `withFetchWord` runs that word, from reset. -/
theorem test_withFetchWord :
    let t := stepped (State.reset.withFetchWord 16 0o005200)
    t.regs.get 0 = 1 ∧ t.steps = 1 ∧ t.fsm = .running := by decide

/-! ### The console -/

def typed (s : State) (line : String) : State := stepped { s with input := [line.toList] }

theorem test_K2_byte_then_word :
    let s := typed { State.reset with mem := Memory.writeWordAt [] 0o2000 0o123456 } "2001/"
    s.replies = [.byte 0o247] ∧ (typed s "").replies = [.byte 0o247, .word 0] ∧ (typed s "").lastAccess = .memory 0o2002 := by decide
theorem test_K5_bus_error_keeps_lastAccess :
    let s := typed (typed State.reset "157776/") ""
    s.replies = [.word 0, .busError] ∧ s.lastAccess = .memory 0o157776 := by decide
theorem test_K6_psw : (typed (typed State.reset "RS/377") "rs/").replies = [.nothing, .psw 0o037] := by decide
theorem test_K8_parse_fault : (typed State.reset "1000 X").replies = [.parseError] := by decide
theorem test_L1_1_register : (typed (typed State.reset "R7/1234") "R7/").replies = [.nothing, .word 0o1234] := by decide
theorem test_execAt :
    let s := typed State.reset "1000G"
    s.fsm = .running ∧ s.pc = 0o1000 ∧ s.steps = 0 := by decide
theorem test_K11_quit :
    let s := typed State.reset "q"
    s.replies = [.quit] ∧ s.session = .ended := by decide

/-! ### The hypotheses of the statements can be met

`sample` is a run at 001000 with an immediate word behind the instruction word: R1 is the first address above VALID_TOP, R2
is VALID_TOP, R3 is an odd address below it, R4 points at the word 157776, R5 points at the word 160000 and R6 just past it. -/

def sample : State :=
  start [0o012702, 0o157776, 2, 0]
    [(1, 0o160000), (2, 0o157776), (3, 0o157775), (4, 0o2000), (5, 0o2002), (6, 0o2004)]
    [(0o2000, 0o157776), (0o2002, 0o160000)] 0o011

/-- The hypotheses of a statement about a two-operand instruction: a source that faults, a destination that faults, a
destination that cannot be written, and two operands that resolve to a destination that can. -/
def TwoOperandWitness (sz : Size) : Prop :=
  (∃ t, resolve sz ⟨.deferred, 1⟩ sample.pc false (Work.ofState sample) = .error t) ∧
  (∃ S w₁ t, resolve sz ⟨.autoInc, 7⟩ sample.pc false (Work.ofState sample) = .ok (S, w₁) ∧
    resolve sz ⟨.deferred, 1⟩ (sample.pc + BitVec.ofNat 16 (2 * S.extra)) true w₁ = .error t) ∧
  (∃ S D w, Resolved2 sz ⟨.register, 0⟩ ⟨.autoInc, 7⟩ sample S D w ∧ ¬Writable ⟨.autoInc, 7⟩) ∧
  ∃ S D w, Resolved2 sz ⟨.autoInc, 7⟩ ⟨.deferred, 2⟩ sample S D w ∧ Writable ⟨.deferred, 2⟩ ∧ D.ea = some 0o157776

theorem twoOperand_word : TwoOperandWitness .word :=
  ⟨⟨_, rfl⟩, ⟨_, _, _, rfl, rfl⟩, ⟨_, _, _, ⟨_, rfl, rfl⟩, by simp [Writable]⟩,
    ⟨_, _, _, ⟨_, rfl, rfl⟩, by simp [Writable], rfl⟩⟩

theorem twoOperand_byte : TwoOperandWitness .byte :=
  ⟨⟨_, rfl⟩, ⟨_, _, _, rfl, rfl⟩, ⟨_, _, _, ⟨_, rfl, rfl⟩, by simp [Writable]⟩,
    ⟨_, _, _, ⟨_, rfl, rfl⟩, by simp [Writable], rfl⟩⟩

/-- The hypotheses of a statement about a one-operand instruction. -/
def OneOperandWitness (sz : Size) (asDest : Bool) : Prop :=
  (∃ t, resolve sz ⟨.deferred, 1⟩ sample.pc asDest (Work.ofState sample) = .error t) ∧
  (∃ O w, Resolved1 sz asDest ⟨.autoIncDeferred, 7⟩ sample O w ∧ ¬Writable ⟨.autoIncDeferred, 7⟩) ∧
  (∃ O w, Resolved1 sz asDest ⟨.register, 7⟩ sample O w ∧ Writable ⟨.register, 7⟩) ∧
  ∃ O w, Resolved1 sz asDest ⟨.deferred, 2⟩ sample O w ∧ Writable ⟨.deferred, 2⟩ ∧ O.ea = some 0o157776

theorem oneOperand_any (sz : Size) (asDest : Bool) : OneOperandWitness sz asDest := by
  cases sz <;> cases asDest <;> exact
    ⟨⟨_, rfl⟩, ⟨_, _, rfl, by simp [Writable]⟩, ⟨_, _, rfl, by simp [Writable]⟩, ⟨_, _, rfl, by simp [Writable], rfl⟩⟩

theorem witness_DecodeOfEncode : (Instr.br (-128)).wellFormed = true ∧ (Instr.bmi 127).wellFormed = true := by decide
theorem witness_EncodeOfDecode : decodeWord 0o000600 = .ok (.br (-128)) := by decide
theorem witness_UnknownWordsAreTheListedOnes : decodeWord 0o177777 = .error (.unknown 0o177777) := by decide

theorem witness_ReadsAreLittleEndianAndBounded :
    0o157776#16 < 0o157777#16 ∧ 0o157776#16 ≤ 0o157776#16 ∧ (0o157776#16).getLsbD 0 = false := by decide
theorem witness_OddWordAccessFaults : 0o157775#16 ≤ 0o157776#16 ∧ (0o157775#16).getLsbD 0 = true := by decide
theorem witness_WriteReplacesItsBytesOnly :
    (0o157776#16 ≤ 0o157776#16 ∧ (Size.word = .word → (0o157776#16).getLsbD 0 = false)) ∧
    (0o157775#16 ≤ 0o157776#16 ∧ (Size.byte = .word → (0o157775#16).getLsbD 0 = false)) := by decide
theorem witness_BytesAboveValidTopNeverChange :
    (∃ t, exec (.mov ⟨.autoInc, 7⟩ ⟨.deferred, 2⟩) sample = .next t) ∧
    sample.fsm = .running ∧ (∃ t, step sample = .next t) ∧ 0o160000 ≤ 0o160000 := ⟨⟨_, rfl⟩, rfl, ⟨_, rfl⟩, le_rfl⟩

theorem witness_CommitWritesThroughItsTag :
    (∃ x, memWrite sample.mem 0o157776 .word 1 = .ok x) ∧ (∃ e, memWrite sample.mem 0o157777 .word 1 = .error e) ∧
    (∃ x, memWrite sample.mem 0o157775 .byte 1 = .ok x) ∧ ∃ e, memWrite sample.mem 0o160000 .byte 1 = .error e :=
  ⟨⟨_, rfl⟩, ⟨_, rfl⟩, ⟨_, rfl⟩, ⟨_, rfl⟩⟩
theorem witness_RegisterAndDeferredModes :
    (∃ v, memRead sample.mem (sample.regs.get 2) .word = .ok v) ∧
    ∃ e, memRead sample.mem (sample.regs.get 1) .byte = .error e := ⟨⟨_, rfl⟩, ⟨_, rfl⟩⟩
/-- Mode 2 reads at R4 and faults at R1; mode 3 faults on its pointer with R1, reads with R4, faults on its operand with
R5. -/
theorem witness_AutoIncrementModes :
    (1 : RegNum) ≠ 7 ∧ (4 : RegNum) ≠ 7 ∧ (5 : RegNum) ≠ 7 ∧
    (∃ v, memRead sample.mem (sample.regs.get 4) .byte = .ok v) ∧
    (∃ e, memRead sample.mem (sample.regs.get 1) .byte = .error e) ∧
    (∃ e, memRead sample.mem (sample.regs.get 1) .word = .error e) ∧
    (∃ a v, memRead sample.mem (sample.regs.get 4) .word = .ok a ∧ memRead sample.mem a .word = .ok v) ∧
    ∃ a e, memRead sample.mem (sample.regs.get 5) .word = .ok a ∧ memRead sample.mem a .word = .error e :=
  ⟨by decide, by decide, by decide, ⟨_, rfl⟩, ⟨_, rfl⟩, ⟨_, rfl⟩, ⟨_, _, rfl, rfl⟩, ⟨_, _, rfl, rfl⟩⟩
/-- The same with the extra word at p + 2, for p = 157776, 001000 and 002000. -/
theorem witness_ImmediateAndAbsoluteModes :
    (∃ v, memRead sample.mem (0o1000 + 2) .byte = .ok v) ∧
    (∃ e, memRead sample.mem (0o157776 + 2) .byte = .error e) ∧
    (∃ e, memRead sample.mem (0o157776 + 2) .word = .error e) ∧
    (∃ a v, memRead sample.mem (0o1000 + 2) .word = .ok a ∧ memRead sample.mem a .word = .ok v) ∧
    ∃ a e, memRead sample.mem (0o2000 + 2) .word = .ok a ∧ memRead sample.mem a .word = .error e :=
  ⟨⟨_, rfl⟩, ⟨_, rfl⟩, ⟨_, rfl⟩, ⟨_, _, rfl, rfl⟩, ⟨_, _, rfl, rfl⟩⟩
/-- R0 steps down past address 0, R1 to VALID_TOP, R5 to the word 157776, R6 to the word 160000, R7 below the instruction. -/
theorem witness_AutoDecrementModes :
    (∃ v, memRead sample.mem (sample.regs.get 1 - 2) .word = .ok v) ∧
    (∃ v, memRead sample.mem (sample.regs.get 7 - 1) .byte = .ok v) ∧
    (∃ e, memRead sample.mem (sample.regs.get 0 - 1) .byte = .error e) ∧
    (∃ e, memRead sample.mem (sample.regs.get 0 - 2) .word = .error e) ∧
    (∃ a v, memRead sample.mem (sample.regs.get 5 - 2) .word = .ok a ∧ memRead sample.mem a .byte = .ok v) ∧
    ∃ a e, memRead sample.mem (sample.regs.get 6 - 2) .word = .ok a ∧ memRead sample.mem a .byte = .error e :=
  ⟨⟨_, rfl⟩, ⟨_, rfl⟩, ⟨_, rfl⟩, ⟨_, rfl⟩, ⟨_, _, rfl, rfl⟩, ⟨_, _, rfl, rfl⟩⟩
/-- With the displacement word 0 at p + 2 = 001006 the effective address is the register, for R7 the address 001006. -/
theorem witness_IndexedModes :
    (∃ e, memRead sample.mem (0o157776 + 2) .word = .error e) ∧
    memRead sample.mem (0o1004 + 2) .word = .ok 0 ∧
    (0o1006 : Word) = (if (7 : RegNum) = 7 then 0o1004 + 2 else sample.regs.get 7) + 0 ∧
    (0o160000 : Word) = (if (1 : RegNum) = 7 then 0o1004 + 2 else sample.regs.get 1) + 0 ∧
    (0o2000 : Word) = (if (4 : RegNum) = 7 then 0o1004 + 2 else sample.regs.get 4) + 0 ∧
    (0o2002 : Word) = (if (5 : RegNum) = 7 then 0o1004 + 2 else sample.regs.get 5) + 0 ∧
    (∃ v, memRead sample.mem 0o1006 .word = .ok v) ∧ (∃ e, memRead sample.mem 0o160000 .byte = .error e) ∧
    (∃ e, memRead sample.mem 0o160000 .word = .error e) ∧
    (∃ a v, memRead sample.mem 0o2000 .word = .ok a ∧ memRead sample.mem a .word = .ok v) ∧
    ∃ a e, memRead sample.mem 0o2002 .word = .ok a ∧ memRead sample.mem a .byte = .error e :=
  ⟨⟨_, rfl⟩, rfl, rfl, rfl, rfl, rfl, ⟨_, rfl⟩, ⟨_, rfl⟩, ⟨_, rfl⟩, ⟨_, _, rfl, rfl⟩, ⟨_, _, rfl, rfl⟩⟩
theorem witness_PcAdvancesPastExtraWords :
    (fun w : Work => (.ok (2, w) : Except Trap (Nat × Work))) (Work.ofState sample) = .ok (2, Work.ofState sample) ∧
    ∃ d w', resolve .word ⟨.indexed, 0⟩ sample.pc false (Work.ofState sample) = .ok (d, w') := ⟨rfl, ⟨_, _, rfl⟩⟩
theorem witness_PcWrittenRecordsWritesOfR7 :
    (∃ d w', resolve .word ⟨.autoDec, 7⟩ sample.pc false (Work.ofState sample) = .ok (d, w')) ∧
    ∃ w', commit .word (.writeRegister 7) 0o1000 (Work.ofState sample) = .ok w' := ⟨⟨_, _, rfl⟩, ⟨_, rfl⟩⟩

theorem witness_MovCopiesTheWord : TwoOperandWitness .word := twoOperand_word
theorem witness_MovbCopiesTheByte : TwoOperandWitness .byte := twoOperand_byte
theorem witness_AddAddsTheWords : TwoOperandWitness .word := twoOperand_word
theorem witness_SubSubtractsTheWords : TwoOperandWitness .word := twoOperand_word
theorem witness_CompareSetsFlagsOnly : TwoOperandWitness .word ∧ TwoOperandWitness .byte := ⟨twoOperand_word, twoOperand_byte⟩
theorem witness_BitTestSetsFlagsOnly : TwoOperandWitness .word ∧ TwoOperandWitness .byte := ⟨twoOperand_word, twoOperand_byte⟩
theorem witness_BitClearAndBitSet : TwoOperandWitness .word ∧ TwoOperandWitness .byte := ⟨twoOperand_word, twoOperand_byte⟩
theorem witness_CarriesAndOverflowsAreExact :
    (aluAdd sample.config sample.flags 0o100000 0o100000).result = some 0 := by decide
theorem witness_ClearWritesZero : ∀ sz, OneOperandWitness sz true := fun sz => oneOperand_any sz true
theorem witness_ComplementForcesCarry : ∀ sz, OneOperandWitness sz true := fun sz => oneOperand_any sz true
theorem witness_IncrementAndDecrement : ∀ sz, OneOperandWitness sz true := fun sz => oneOperand_any sz true
theorem witness_NegateSetsCarryUnlessZero : ∀ sz, OneOperandWitness sz true := fun sz => oneOperand_any sz true
theorem witness_TestSetsFlagsOnly : ∀ sz, OneOperandWitness sz false := fun sz => oneOperand_any sz false
theorem witness_ArithmeticShifts : ∀ sz, OneOperandWitness sz true := fun sz => oneOperand_any sz true
theorem witness_MfpsWritesThePackedByte : OneOperandWitness .byte true := oneOperand_any .byte true
theorem witness_MtpsSetsAllFlags : OneOperandWitness .byte true := oneOperand_any .byte true

/-- A branch backwards past address 0 and one forwards to VALID_TOP + 2. -/
theorem witness_BranchesMoveThePcOnly :
    (0o177502 : Word) = 0o100 + 2 + BitVec.ofInt 16 (2 * (-128)) ∧ (0o160000 : Word) = 0o157400 + 2 + BitVec.ofInt 16 (2 * 127) := by
  decide
theorem witness_JumpGoesToTheEffectiveAddress :
    (⟨.register, 0⟩ : Operand).mode = .register ∧
    (∃ t, resolve .word ⟨.deferred, 1⟩ sample.pc false (Work.ofState sample) = .error t) ∧
    (⟨.deferred, 2⟩ : Operand).mode ≠ .register ∧ ∃ O w, Resolved1 .word false ⟨.deferred, 2⟩ sample O w :=
  ⟨rfl, ⟨_, rfl⟩, by decide, ⟨_, _, rfl⟩⟩
theorem witness_JumpTargetsAreFetchable :
    (∃ t, exec (.jmp ⟨.deferred, 2⟩) sample = .next t ∧ t.faultLog = sample.faultLog) ∧
    sample.pc.getLsbD 0 = false ∧ ∃ t, exec (.br 127) sample = .next t := ⟨⟨_, rfl, rfl⟩, by decide, ⟨_, rfl⟩⟩

theorem witness_FaultingInstructionHasNoOtherEffect :
    ∃ t, exec (.clr ⟨.deferred, 1⟩) sample = .next t ∧ t.faultLog ≠ sample.faultLog := ⟨_, rfl, by decide⟩
theorem witness_ReadersNeverRaiseInvalidDestination :
    (∃ t, exec (.cmp ⟨.register, 0⟩ ⟨.autoInc, 7⟩) sample = .next t) ∧
    (∃ t, exec (.mtps ⟨.autoInc, 7⟩) sample = .next t) ∧ ∃ t, exec (.beq 0) sample = .next t :=
  ⟨⟨_, rfl⟩, ⟨_, rfl⟩, ⟨_, rfl⟩⟩
theorem witness_EveryInstructionAnswersANextState : Instr.br 0 ≠ .halt := by decide
theorem witness_TwoOperandWritersFrame :
    (∃ t, exec (.mov ⟨.autoInc, 7⟩ ⟨.deferred, 2⟩) sample = .next t) ∧
    (∃ t, exec (.bicb ⟨.autoInc, 7⟩ ⟨.deferred, 2⟩) sample = .next t) ∧ sample.config.unstatedV = .unchanged ∧
    (¬∃ S D w, Resolved2 .word ⟨.deferred, 1⟩ ⟨.register, 0⟩ sample S D w) ∧
    TwoOperandWitness .word ∧ TwoOperandWitness .byte := by
  refine ⟨⟨_, rfl⟩, ⟨_, rfl⟩, rfl, ?_, twoOperand_word, twoOperand_byte⟩
  rintro ⟨S, D, w, w₁, h, -⟩
  have hf : resolve .word ⟨.deferred, 1⟩ sample.pc false (Work.ofState sample) = .error (.access ⟨.busFault, 0o160000⟩) := rfl
  rw [hf] at h
  cases h
theorem witness_OneOperandWritersFrame :
    (∃ t, exec (.asl ⟨.deferred, 2⟩) sample = .next t) ∧ (∃ t, exec (.mfps ⟨.deferred, 2⟩) sample = .next t) ∧
    sample.config.unstatedV = .unchanged ∧ ∀ sz, OneOperandWitness sz true :=
  ⟨⟨_, rfl⟩, ⟨_, rfl⟩, rfl, fun sz => oneOperand_any sz true⟩
theorem witness_ReadersFrame :
    (∃ t, exec (.cmpb ⟨.autoInc, 7⟩ ⟨.deferred, 2⟩) sample = .next t) ∧ sample.config.unstatedV = .unchanged ∧
    ∃ t, exec (.tst ⟨.autoDec, 1⟩) sample = .next t := ⟨⟨_, rfl⟩, rfl, ⟨_, rfl⟩⟩
theorem witness_BranchAndJumpFrame :
    (∃ t, exec (.bmi (-128)) sample = .next t) ∧ ∃ t, exec (.jmp ⟨.autoIncDeferred, 4⟩) sample = .next t :=
  ⟨⟨_, rfl⟩, ⟨_, rfl⟩⟩
theorem witness_CarryOverflowAndTraceAreNoInputs : ∀ o, Instr.mtps ⟨.register, 0⟩ ≠ .mfps o := by simp

theorem witness_StepRunsTheDecodedInstruction :
    (sample.fsm = .running ∧ sample.pc ≤ 0o157776#16 ∧ sample.pc.getLsbD 0 = false ∧
      decode [sample.mem.read sample.pc.toNat, sample.mem.read (sample.pc.toNat + 1)] =
        .ok (.mov ⟨.autoInc, 7⟩ ⟨.register, 2⟩, []) ∧ sample.steps ≠ sample.config.stepLimit) ∧
    decode [(startRun sample 0o157774).mem.read 0o157774, (startRun sample 0o157774).mem.read 0o157775] = .ok (.halt, []) := by
  decide
theorem witness_RunStopsBetweenInstructions :
    (∃ e, memRead sample.mem 0o160000 .word = .error e) ∧ (∃ e, memRead sample.mem 0o1001 .word = .error e) ∧
    memRead sample.mem 0o157776 .word = .ok 0 ∧
    ∃ W, memRead sample.mem sample.pc .word = .ok W ∧ W ≠ 0 ∧
      { sample with steps := 1000 }.steps = { sample with steps := 1000 }.config.stepLimit :=
  ⟨⟨_, rfl⟩, ⟨_, rfl⟩, rfl, ⟨_, rfl, by decide, rfl⟩⟩
theorem witness_UnknownWordIsLoggedAndSkipped :
    let s := start [0o070000] [] [] 0
    s.fsm = .running ∧ memRead s.mem s.pc .word = .ok 0o070000 ∧ (0o070000 : Word) ≠ 0 ∧ s.steps ≠ s.config.stepLimit ∧
      decodeWord 0o070000 = .error (.unknown 0o070000) := by decide
theorem witness_EveryRunTerminates : sample.fsm = .running ∧ sample.steps ≤ sample.config.stepLimit := by decide
theorem sample_inv : Inv sample where
  memory := by decide
  ceiling := by decide
  counted := by decide
  lastEnds := by decide
  running := by decide
  session := by decide
theorem witness_StepKeepsTheInvariant : Inv sample ∧ ∃ t, step sample = .next t := ⟨sample_inv, ⟨_, rfl⟩⟩

theorem witness_ConsoleMemoryCommands :
    0o157776#16 < 0o157777#16 ∧ (0o157776#16 ≤ 0o157776#16 ∧ (0o157776#16).getLsbD 0 = false) ∧
    (0o157775#16 ≤ 0o157776#16 ∧ (0o157775#16).getLsbD 0 = true) := by decide
theorem witness_ContinuationOfRegisters :
    { State.reset with lastAccess := .register 7 }.lastAccess = .register 7 ∧
    (0 : RegNum).val = ((7 : RegNum).val + 1) % 8 ∧ State.reset.lastAccess = .none := by decide
theorem witness_ContinuationOfMemory :
    { State.reset with lastAccess := .memory 0o157776 }.lastAccess = .memory 0o157776 ∧
    (0o160000 : Word) = 0o157776 + (if (0o157776 : Word).getLsbD 0 then 1 else 2) ∧ 0o157776#16 < 0o160000#16 ∧
    (0o2002 : Word) = 0o2001 + (if (0o2001 : Word).getLsbD 0 then 1 else 2) := by decide
theorem witness_IdleStepTakesOneLine :
    State.reset.fsm = .idle ∧ { State.reset with session := .ended }.session = .ended ∧ State.reset.session = .active ∧
    State.reset.input = [] ∧ parseLine "157777/1".toList = some (.memWrite 0o157777 1) ∧
    parseLine "177777G".toList = some (.execAt 0o177777) ∧ parseLine "Q".toList = some .quit ∧
    parseLine "R8/".toList = none := by decide

end Sys2Proof.Tests
end

/-! ### The families of instructions

Every instruction is one of the templates the model is written in. A proof about all instructions goes through
`instr_family` and treats each template once. -/

namespace Sys2Proof.Machine

/-- The result, N and Z of a two-operand operation do not depend on the flags before it. -/
def FlagBlind2 (op : Config → Flags → Word → Word → Alu) : Prop :=
  ∀ cfg f g src dst, (op cfg g src dst).result = (op cfg f src dst).result ∧
    (op cfg g src dst).flags.n = (op cfg f src dst).flags.n ∧ (op cfg g src dst).flags.z = (op cfg f src dst).flags.z

/-- The result, N and Z of a one-operand operation do not depend on the flags before it. -/
def FlagBlind1 (op : Config → Flags → Word → Alu) : Prop :=
  ∀ cfg f g v, (op cfg g v).result = (op cfg f v).result ∧
    (op cfg g v).flags.n = (op cfg f v).flags.n ∧ (op cfg g v).flags.z = (op cfg f v).flags.z

/-- Two flag registers agree on N and Z. -/
def SameNZ (f g : Flags) : Prop := g.n = f.n ∧ g.z = f.z

/-- The template of an instruction, with what its operation or its branch condition may depend on. That an operation is
blind to the flags, and that `exec` is the template, are true by unfolding, so they are default arguments. -/
inductive InstrFamily (i : Instr) : Prop
  | twoOperand (sz : Size) (op : Config → Flags → Word → Word → Alu) (src dst : Operand)
      (blind : FlagBlind2 op := by exact fun _ _ _ _ _ => ⟨rfl, rfl, rfl⟩)
      (exec_eq : exec i = exec2 sz op src dst := by rfl)
  | oneOperand (sz : Size) (asDest : Bool) (op : Config → Flags → Word → Alu) (o : Operand)
      (blind : FlagBlind1 op := by exact fun _ _ _ _ => ⟨rfl, rfl, rfl⟩)
      (exec_eq : exec i = exec1 sz asDest op o := by rfl)
  | mfps (o : Operand) (eq : i = .mfps o := by rfl)
  | branch (taken : Flags → Bool) (disp : Int) (testsNZ : ∀ f g, SameNZ f g → taken g = taken f)
      (exec_eq : exec i = execBranch taken disp := by rfl)
  | jmp (o : Operand) (eq : i = .jmp o := by rfl)
  | halt (eq : i = .halt := by rfl)

/-- Every instruction belongs to a family. -/
theorem instr_family : ∀ i : Instr, InstrFamily i
  | .mov src dst => .twoOperand .word aluMov src dst
  | .cmp src dst => .twoOperand .word (aluCmp .word) src dst
  | .bit src dst => .twoOperand .word (aluBit .word) src dst
  | .bic src dst => .twoOperand .word (aluBic .word) src dst
  | .bis src dst => .twoOperand .word (aluBis .word) src dst
  | .add src dst => .twoOperand .word aluAdd src dst
  | .movb src dst => .twoOperand .byte aluMovb src dst
  | .cmpb src dst => .twoOperand .byte (aluCmp .byte) src dst
  | .bitb src dst => .twoOperand .byte (aluBit .byte) src dst
  | .bicb src dst => .twoOperand .byte (aluBic .byte) src dst
  | .bisb src dst => .twoOperand .byte (aluBis .byte) src dst
  | .sub src dst => .twoOperand .word aluSub src dst
  | .clr dst => .oneOperand .word true aluClr dst
  | .com dst => .oneOperand .word true (aluCom .word) dst
  | .inc dst => .oneOperand .word true (aluInc .word) dst
  | .dec dst => .oneOperand .word true (aluDec .word) dst
  | .neg dst => .oneOperand .word true (aluNeg .word) dst
  | .tst src => .oneOperand .word false (aluTst .word) src
  | .asr dst => .oneOperand .word true (aluAsr .word) dst
  | .asl dst => .oneOperand .word true (aluAsl .word) dst
  | .clrb dst => .oneOperand .byte true aluClr dst
  | .comb dst => .oneOperand .byte true (aluCom .byte) dst
  | .incb dst => .oneOperand .byte true (aluInc .byte) dst
  | .decb dst => .oneOperand .byte true (aluDec .byte) dst
  | .negb dst => .oneOperand .byte true (aluNeg .byte) dst
  | .tstb src => .oneOperand .byte false (aluTst .byte) src
  | .asrb dst => .oneOperand .byte true (aluAsr .byte) dst
  | .aslb dst => .oneOperand .byte true (aluAsl .byte) dst
  | .mtps src => .oneOperand .byte true aluMtps src
  | .mfps dst => .mfps dst
  | .br disp => .branch (fun _ => true) disp (fun _ _ _ => rfl)
  | .bne disp => .branch (fun f => !f.z) disp (fun _ _ h => congrArg _ h.2)
  | .beq disp => .branch (fun f => f.z) disp (fun _ _ h => h.2)
  | .bpl disp => .branch (fun f => !f.n) disp (fun _ _ h => congrArg _ h.1)
  | .bmi disp => .branch (fun f => f.n) disp (fun _ _ h => h.1)
  | .jmp dst => .jmp dst
  | .halt => .halt

end Sys2Proof.Machine

/-! ### Bytes from 160000 up -/

namespace Sys2Proof.Machine

/-- Every byte from 0o160000 up reads the same in both memories. -/
def SameAboveTop (m m' : Memory) : Prop := ∀ x, 0o160000 ≤ x → m'.read x = m.read x

theorem SameAboveTop.refl (m : Memory) : SameAboveTop m m := fun _ _ => rfl

/-- A write that succeeds is at most at VALID_TOP, so its last byte is at most the one at 0o157777. -/
theorem memWrite_sameAboveTop {m m' : Memory} {a v : Word} {sz : Size} (h : memWrite m a sz v = .ok m') :
    SameAboveTop m m' := by
  intro x hx
  obtain ⟨hc, rfl⟩ := (memWrite_ok_iff ..).1 h
  have ha := toNat_le_validTop ((checkAccess_ok_iff a sz).1 hc).1
  cases sz
  case word =>
    have h₁ : x ≠ a.toNat + 1 := by omega
    have h₀ : x ≠ a.toNat := by omega
    simp [Memory.read_writeWordAt, h₁, h₀]
  case byte => exact Memory.read_write_ne _ _ (by omega)

theorem commit_sameAboveTop {sz : Size} {wb : WriteBack} {v : Word} {w w' : Work} (h : commit sz wb v w = .ok w') :
    SameAboveTop w.mem w'.mem := by
  rcases commit_cases h with ⟨-, rfl⟩ | ⟨r, -, rfl⟩ | ⟨a, m, -, hw, rfl⟩ | ⟨a, m, -, hw, rfl⟩
  · exact .refl _
  · exact .refl _
  · exact memWrite_sameAboveTop hw
  · exact memWrite_sameAboveTop hw

theorem finishAlu_sameAboveTop {sz : Size} {wb : WriteBack} {out : Alu} {w w' : Work}
    (h : finishAlu sz wb out w = .ok w') : SameAboveTop w.mem w'.mem := by
  rcases finishAlu_ok_iff.1 h with ⟨-, rfl⟩ | ⟨r, w'', -, hc, rfl⟩
  · exact .refl _
  · have hmem := commit_sameAboveTop hc
    exact hmem

theorem exec2_sameAboveTop {sz : Size} {op : Config → Flags → Word → Word → Alu} {src dst : Operand} {s t : State}
    (h : exec2 sz op src dst s = .next t) : SameAboveTop s.mem t.mem := by
  rcases exec2_cases sz op src dst s with ⟨S, D, w₁, w₂, w₃, hS, hD, hF, he⟩ | ⟨f, he⟩ <;> cases he.symm.trans h
  · have hmem : w₂.mem = s.mem := (resolve_flags_mem hD).2.trans (resolve_flags_mem hS).2
    exact hmem ▸ finishAlu_sameAboveTop hF
  · exact .refl _

theorem exec1_sameAboveTop {sz : Size} {asDest : Bool} {op : Config → Flags → Word → Alu} {o : Operand} {s t : State}
    (h : exec1 sz asDest op o s = .next t) : SameAboveTop s.mem t.mem := by
  rcases exec1_cases sz asDest op o s with ⟨O, w₁, w₂, hO, hF, he⟩ | ⟨f, he⟩ <;> cases he.symm.trans h
  · have hmem : w₁.mem = s.mem := (resolve_flags_mem hO).2
    exact hmem ▸ finishAlu_sameAboveTop hF
  · exact .refl _

/-- What an instruction's body keeps of memory, the instruction keeps: a fault discards the work. -/
theorem runInstr_sameAboveTop {body : Work → Except Trap (Nat × Work)} {s t : State}
    (hbody : ∀ extra w, body (Work.ofState s) = .ok (extra, w) → SameAboveTop s.mem w.mem)
    (h : runInstr body s = .next t) : SameAboveTop s.mem t.mem := by
  rcases runInstr_cases body s with ⟨extra, w, hb, he⟩ | ⟨f, -, he⟩ <;> cases he.symm.trans h
  · exact hbody extra w hb
  · exact .refl _

theorem execMfps_sameAboveTop {dst : Operand} {s t : State} (h : execMfps dst s = .next t) :
    SameAboveTop s.mem t.mem := by
  refine runInstr_sameAboveTop (fun extra w hb => ?_) h
  simp only [except_bind_ok, Except.ok.injEq, Prod.mk.injEq] at hb
  obtain ⟨⟨O, w₁⟩, hO, w₂, hC, -, rfl⟩ := hb
  have hmem : w₁.mem = s.mem := (resolve_flags_mem hO).2
  exact hmem ▸ commit_sameAboveTop hC

theorem execBranch_sameAboveTop {taken : Flags → Bool} {disp : Int} {s t : State}
    (h : execBranch taken disp s = .next t) : SameAboveTop s.mem t.mem := by
  refine runInstr_sameAboveTop (fun extra w hb => ?_) h
  split at hb <;> cases hb <;> exact .refl _

theorem execJmp_sameAboveTop {dst : Operand} {s t : State} (h : execJmp dst s = .next t) :
    SameAboveTop s.mem t.mem := by
  refine runInstr_sameAboveTop (fun extra w hb => ?_) h
  split at hb
  · cases hb
  · obtain ⟨⟨O, w₁⟩, hO, hea⟩ := (except_bind_ok ..).1 hb
    have hmem : w₁.mem = s.mem := (resolve_flags_mem hO).2
    cases hO' : O.ea <;> simp only [hO', reduceCtorEq, Except.ok.injEq, Prod.mk.injEq] at hea
    obtain ⟨-, rfl⟩ := hea
    exact hmem ▸ .refl _

theorem exec_sameAboveTop {i : Instr} {s t : State} (h : exec i s = .next t) : SameAboveTop s.mem t.mem := by
  cases instr_family i with
  | twoOperand sz op src dst _ heq => exact exec2_sameAboveTop (heq ▸ h)
  | oneOperand sz asDest op o _ heq => exact exec1_sameAboveTop (heq ▸ h)
  | mfps o heq => subst heq; exact execMfps_sameAboveTop h
  | branch taken disp _ heq => exact execBranch_sameAboveTop (heq ▸ h)
  | jmp o heq => subst heq; exact execJmp_sameAboveTop h
  | halt heq => subst heq; cases h; exact .refl _

theorem runStep_sameAboveTop {s t : State} (h : runStep s = .next t) : SameAboveTop s.mem t.mem := by
  rcases runStep_cases s with ⟨e, -, he⟩ | ⟨-, he⟩ | ⟨W, -, -, -, he⟩ | ⟨W, i, -, -, -, -, he⟩ | ⟨W, e, -, -, -, -, he⟩
  · cases he.symm.trans h; exact .refl _
  · cases he.symm.trans h; exact .refl _
  · cases he.symm.trans h; exact .refl _
  · exact exec_sameAboveTop (s := countStep s) (he ▸ h)
  · cases he.symm.trans h; exact .refl _

/-- While the FSM is Running a step is a step of the loop (44_execution_loop.md R210). -/
theorem step_of_running {s : State} (h : s.fsm = .running) : step s = runStep s := by
  simp only [step, h]

/-- Settles O9: the only operation that changes memory is a write that passed the check against VALID_TOP, and each family
of instructions commits through it. -/
theorem bytesAboveValidTopNeverChange : Obligations.BytesAboveValidTopNeverChange :=
  ⟨fun _ _ _ h => exec_sameAboveTop h, fun _ _ hrun h => runStep_sameAboveTop (step_of_running hrun ▸ h)⟩

end Sys2Proof.Machine

/-! ### Two runs that differ in C, V and T

The runs are compared work by work: `Work.SameButCVT` is kept by every operand primitive, and `ExceptRel` lifts it over the
faults. -/

namespace Sys2Proof.Machine

/-- Both computations fail with one fault, or both succeed with related results. -/
inductive ExceptRel {ε α : Type} (R : α → α → Prop) : Except ε α → Except ε α → Prop
  | ok {a b : α} (h : R a b) : ExceptRel R (.ok a) (.ok b)
  | error (e : ε) : ExceptRel R (.error e) (.error e)

theorem ExceptRel.bind {ε α β : Type} {R : α → α → Prop} {Q : β → β → Prop} {x y : Except ε α} {f g : α → Except ε β}
    (h : ExceptRel R x y) (hfg : ∀ a b, R a b → ExceptRel Q (f a) (g b)) : ExceptRel Q (x >>= f) (y >>= g) := by
  cases h with
  | ok hab => exact hfg _ _ hab
  | error e => exact .error e

/-- The two computations begin with the same read. -/
theorem ExceptRel.bind_same {ε α β : Type} {Q : β → β → Prop} (x : Except ε α) {f g : α → Except ε β}
    (hfg : ∀ a, ExceptRel Q (f a) (g a)) : ExceptRel Q (x >>= f) (x >>= g) := by
  cases x with
  | ok a => exact hfg a
  | error e => exact .error e

/-- Two works that agree but for C, V and T. -/
structure Work.SameButCVT (w w' : Work) : Prop where
  regs : w'.regs = w.regs
  mem : w'.mem = w.mem
  pcWritten : w'.pcWritten = w.pcWritten
  nz : SameNZ w.flags w'.flags

/-- The same answer, beside works that agree but for C, V and T. -/
def SameAnswer {α : Type} (x y : α × Work) : Prop := x.1 = y.1 ∧ x.2.SameButCVT y.2

theorem Work.SameButCVT.load {w w' : Work} (h : w.SameButCVT w') (a : Word) (sz : Size) :
    w'.load a sz = w.load a sz := by
  simp only [Work.load, h.mem]

theorem Work.SameButCVT.writeReg {w w' : Work} (h : w.SameButCVT w') (i : RegNum) (v : Word) :
    (w.writeReg i v).SameButCVT (w'.writeReg i v) where
  regs := by simp [h.regs]
  mem := h.mem
  pcWritten := by simp [h.pcWritten]
  nz := h.nz

theorem Work.SameButCVT.store {w w' : Work} (h : w.SameButCVT w') (a : Word) (sz : Size) (v : Word) :
    ExceptRel Work.SameButCVT (w.store a sz v) (w'.store a sz v) := by
  simp only [Work.store, h.mem]
  cases memWrite w.mem a sz v with
  | ok m => exact .ok ⟨h.regs, rfl, h.pcWritten, h.nz⟩
  | error e => exact .error _

/-- The mode rules read registers and memory only. -/
theorem Work.SameButCVT.resolveMode {w w' : Work} (h : w.SameButCVT w') (sz : Size) (o : Operand) (p : Word) :
    ExceptRel SameAnswer (resolveMode sz o p w) (resolveMode sz o p w') := by
  obtain ⟨mode, r⟩ := o
  cases mode
  case register =>
    simp only [Machine.resolveMode, resolveRegister, h.regs]
    exact .ok ⟨rfl, h⟩
  case deferred =>
    simp only [Machine.resolveMode, resolveDeferred, h.regs, h.load]
    exact .bind_same _ fun v => .ok ⟨rfl, h⟩
  case autoInc =>
    simp only [Machine.resolveMode, resolveImmediate, resolveAutoInc, h.regs, h.load]
    split
    · exact .bind_same _ fun v => .ok ⟨rfl, h⟩
    · exact .bind_same _ fun v => .ok ⟨rfl, h.writeReg _ _⟩
  case autoIncDeferred =>
    simp only [Machine.resolveMode, resolveAbsolute, resolveAutoIncDeferred, h.regs, h.load]
    split
    · exact .bind_same _ fun a => .bind_same _ fun v => .ok ⟨rfl, h⟩
    · exact .bind_same _ fun a => .bind_same _ fun v => .ok ⟨rfl, h.writeReg _ _⟩
  case autoDec =>
    simp only [Machine.resolveMode, resolveAutoDec, h.regs, (h.writeReg _ _).load]
    exact .bind_same _ fun v => .ok ⟨rfl, h.writeReg _ _⟩
  case autoDecDeferred =>
    simp only [Machine.resolveMode, resolveAutoDecDeferred, h.regs, (h.writeReg _ _).load]
    exact .bind_same _ fun a => .bind_same _ fun v => .ok ⟨rfl, h.writeReg _ _⟩
  case indexed =>
    simp only [Machine.resolveMode, resolveIndexed, indexBase, h.regs, h.load]
    exact .bind_same _ fun d => .bind_same _ fun v => .ok ⟨rfl, h⟩
  case indexedDeferred =>
    simp only [Machine.resolveMode, resolveIndexedDeferred, indexBase, h.regs, h.load]
    exact .bind_same _ fun d => .bind_same _ fun a => .bind_same _ fun v => .ok ⟨rfl, h⟩

theorem Work.SameButCVT.resolve {w w' : Work} (h : w.SameButCVT w') (sz : Size) (o : Operand) (p : Word)
    (asDest : Bool) : ExceptRel SameAnswer (resolve sz o p asDest w) (resolve sz o p asDest w') := by
  have hm := h.resolveMode sz o p
  unfold Machine.resolve
  generalize Machine.resolveMode sz o p w = x, Machine.resolveMode sz o p w' = y at hm
  cases hm with
  | ok hab => exact .ok ⟨by rw [hab.1], hab.2⟩
  | error t => exact .error t

theorem Work.SameButCVT.commit {w w' : Work} (h : w.SameButCVT w') (sz : Size) (wb : WriteBack) (v : Word) :
    ExceptRel Work.SameButCVT (commit sz wb v w) (commit sz wb v w') := by
  cases wb with
  | discard => exact .ok h
  | invalid mode reg => exact .error _
  | writeRegister r =>
    simp only [Machine.commit, h.regs]
    exact .ok (h.writeReg _ _)
  | writeMemoryWord a => exact h.store a .word v
  | writeMemoryByte a => exact h.store a .byte v

/-- Operations that answer the same result, N and Z end in works that agree but for C, V and T. -/
theorem Work.SameButCVT.finishAlu {w w' : Work} (h : w.SameButCVT w') (sz : Size) (wb : WriteBack) {out out' : Alu}
    (hres : out'.result = out.result) (hnz : SameNZ out.flags out'.flags) :
    ExceptRel Work.SameButCVT (finishAlu sz wb out w) (finishAlu sz wb out' w') := by
  simp only [Machine.finishAlu, hres]
  cases out.result with
  | none => exact .ok ⟨h.regs, h.mem, h.pcWritten, hnz⟩
  | some r =>
    have hc := h.commit sz wb r
    dsimp only
    generalize Machine.commit sz wb r w = x, Machine.commit sz wb r w' = y at hc
    cases hc with
    | ok hab => exact .ok ⟨hab.regs, hab.mem, hab.pcWritten, hnz⟩
    | error t => exact .error t

/-- Two states after an instruction that agree in what does not come from C, V or T. -/
structure State.SameButCVT (u u' : State) : Prop where
  regs : u'.regs = u.regs
  mem : u'.mem = u.mem
  faultLog : u'.faultLog = u.faultLog
  fsm : u'.fsm = u.fsm
  nz : SameNZ u.flags u'.flags

/-- A meaning answers next states that agree but for C, V and T, from any two states that differ in these only. -/
def IgnoresCVT (e : State → Host.Outcome State Fault Refusal) : Prop :=
  ∀ (s : State) (g : Flags), SameNZ s.flags g →
    ∃ u u', e s = .next u ∧ e { s with flags := g } = .next u' ∧ u.SameButCVT u'

/-- The bodies of an instruction from two such states. -/
theorem runInstr_sameButCVT {body body' : Work → Except Trap (Nat × Work)} {s : State} {g : Flags}
    (hg : SameNZ s.flags g)
    (hbody : (Work.ofState s).SameButCVT (Work.ofState { s with flags := g }) →
      ExceptRel SameAnswer (body (Work.ofState s)) (body' (Work.ofState { s with flags := g }))) :
    ∃ u u', runInstr body s = .next u ∧ runInstr body' { s with flags := g } = .next u' ∧ u.SameButCVT u' := by
  have hb := hbody ⟨rfl, rfl, rfl, hg⟩
  unfold runInstr
  generalize body (Work.ofState s) = x, body' (Work.ofState { s with flags := g }) = y at hb
  cases hb with
  | @ok a b hab =>
    obtain ⟨extra, w⟩ := a
    obtain ⟨extra', w'⟩ := b
    obtain ⟨rfl, hw⟩ : extra = extra' ∧ w.SameButCVT w' := hab
    refine ⟨_, _, rfl, rfl, ?_, hw.mem, rfl, rfl, hw.nz⟩
    simp only [complete_regs, hw.regs, hw.pcWritten, State.pc]
  | error t => exact ⟨_, _, rfl, rfl, rfl, rfl, rfl, rfl, hg⟩

theorem exec2_ignoresCVT (sz : Size) {op : Config → Flags → Word → Word → Alu} (hop : FlagBlind2 op)
    (src dst : Operand) : IgnoresCVT (exec2 sz op src dst) := by
  refine fun s g hg => runInstr_sameButCVT hg fun h => ?_
  refine (h.resolve sz src s.pc false).bind ?_
  rintro ⟨S, w₁⟩ ⟨S', w₁'⟩ ⟨rfl, h₁⟩
  refine (h₁.resolve sz dst _ true).bind ?_
  rintro ⟨D, w₂⟩ ⟨D', w₂'⟩ ⟨rfl, h₂⟩
  obtain ⟨hres, hnz⟩ := hop s.config w₂.flags w₂'.flags S.value D.value
  exact (h₂.finishAlu sz D.wb hres hnz).bind fun _ _ h₃ => .ok ⟨rfl, h₃⟩

theorem exec1_ignoresCVT (sz : Size) (asDest : Bool) {op : Config → Flags → Word → Alu} (hop : FlagBlind1 op)
    (o : Operand) : IgnoresCVT (exec1 sz asDest op o) := by
  refine fun s g hg => runInstr_sameButCVT hg fun h => ?_
  refine (h.resolve sz o s.pc asDest).bind ?_
  rintro ⟨O, w₁⟩ ⟨O', w₁'⟩ ⟨rfl, h₁⟩
  obtain ⟨hres, hnz⟩ := hop s.config w₁.flags w₁'.flags O.value
  exact (h₁.finishAlu sz O.wb hres hnz).bind fun _ _ h₂ => .ok ⟨rfl, h₂⟩

theorem execBranch_ignoresCVT {taken : Flags → Bool} (htaken : ∀ f g, SameNZ f g → taken g = taken f) (disp : Int) :
    IgnoresCVT (execBranch taken disp) := by
  refine fun s g hg => runInstr_sameButCVT hg fun h => ?_
  simp only [htaken _ _ h.nz]
  split
  · exact .ok ⟨rfl, h.writeReg _ _⟩
  · exact .ok ⟨rfl, h⟩

theorem execJmp_ignoresCVT (dst : Operand) : IgnoresCVT (execJmp dst) := by
  refine fun s g hg => runInstr_sameButCVT hg fun h => ?_
  split
  · exact .error _
  · refine (h.resolve .word dst s.pc false).bind ?_
    rintro ⟨O, w₁⟩ ⟨O', w₁'⟩ ⟨rfl, h₁⟩
    dsimp only
    split
    · exact .ok ⟨rfl, h₁.writeReg _ _⟩
    · exact .error _

theorem execHalt_ignoresCVT : IgnoresCVT execHalt :=
  fun _ _ hg => ⟨_, _, rfl, rfl, rfl, rfl, rfl, rfl, hg⟩

/-- MFPS alone takes C, V and T as inputs. -/
theorem exec_ignoresCVT {i : Instr} (hi : ∀ o, i ≠ .mfps o) : IgnoresCVT (exec i) := by
  cases instr_family i with
  | twoOperand sz op src dst hop heq => exact heq ▸ exec2_ignoresCVT sz hop src dst
  | oneOperand sz asDest op o hop heq => exact heq ▸ exec1_ignoresCVT sz asDest hop o
  | mfps o heq => exact absurd heq (hi o)
  | branch taken disp htaken heq => exact heq ▸ execBranch_ignoresCVT htaken disp
  | jmp o heq => subst heq; exact execJmp_ignoresCVT o
  | halt heq => subst heq; exact execHalt_ignoresCVT

/-- Settles O46: the operand primitives read no flag, no operation's result, N or Z depends on the flags before it, and the
branches test N and Z only. -/
theorem carryOverflowAndTraceAreNoInputs : Obligations.CarryOverflowAndTraceAreNoInputs := by
  intro i s v c t hi
  obtain ⟨u, u', hu, hu', h⟩ := exec_ignoresCVT hi s { s.flags with v := v, c := c, t := t } ⟨rfl, rfl⟩
  exact ⟨u, u', hu, hu', h.regs, h.mem, h.faultLog, h.fsm, h.nz.1, h.nz.2⟩

end Sys2Proof.Machine

/-! ### Commit -/

namespace Sys2Proof.Machine

/-- The register after a write of a size (10_state.md R25). -/
theorem mergeRegister_eq (sz : Size) (old v : Word) :
    mergeRegister sz old v = if sz = .word then v else (old &&& 0xFF00) ||| (v &&& 0xFF) := by
  cases sz <;> rfl

theorem store_error_iff (w : Work) (a : Word) (sz : Size) (v : Word) (t : Trap) :
    w.store a sz v = .error t ↔ ∃ e, memWrite w.mem a sz v = .error e ∧ t = .access e := by
  unfold Work.store
  cases memWrite w.mem a sz v <;> simp [eq_comm]

/-- A register operand resolves to the part of the register its size sees, as a source and as a destination (R94). -/
theorem resolve_register (sz : Size) (r : RegNum) (p : Word) (asDest : Bool) (w : Work) :
    resolve sz ⟨.register, r⟩ p asDest w =
      .ok (⟨sized sz (w.regs.get r), if asDest then .writeRegister r else .discard, 0, none⟩, w) := by
  cases asDest <;> rfl

/-- A commit to a register writes the merged word and records a write of x[7] (R106, R108). -/
theorem commit_writeRegister (sz : Size) (r : RegNum) (v : Word) (w : Work) :
    commit sz (.writeRegister r) v w = .ok { w with
      regs := w.regs.put r (if sz = .word then v else (w.regs.get r &&& 0xFF00) ||| (v &&& 0xFF))
      pcWritten := w.pcWritten || decide (r = 7) } := by
  rw [← mergeRegister_eq]
  rfl

/-- Settles O10, tag by tag. -/
theorem commitWritesThroughItsTag : Obligations.CommitWritesThroughItsTag := by
  intro sz r m a v p asDest w
  refine ⟨rfl, rfl, commit_writeRegister sz r v w, fun x hx => ?_, fun e he => ?_, fun x hx => ?_, fun e he => ?_,
    _, resolve_register .byte r p asDest w, rfl⟩
  · exact (store_ok_iff ..).2 ⟨x, hx, rfl⟩
  · exact (store_error_iff ..).2 ⟨e, he, rfl⟩
  · exact (store_ok_iff ..).2 ⟨x, hx, rfl⟩
  · exact (store_error_iff ..).2 ⟨e, he, rfl⟩

end Sys2Proof.Machine

/-! ### The packed status byte -/

namespace Sys2Proof.Machine

/-- The packed byte bit by bit; bits 5 to 7 read 0 (10_state.md R30, D8). -/
theorem Flags.getLsbD_pack (f : Flags) (i : Fin 8) :
    f.pack.getLsbD i = [f.c, f.v, f.z, f.n, f.t, false, false, false][i] := by
  obtain ⟨n, z, v, c, t⟩ := f
  revert n z v c t i
  decide

theorem Flags.unpack_pack (f : Flags) : Flags.unpack f.pack = f :=
  (Flags.mk.injEq ..).mpr
    ⟨f.getLsbD_pack 3, f.getLsbD_pack 2, f.getLsbD_pack 1, f.getLsbD_pack 0, f.getLsbD_pack 4⟩

theorem Flags.pack_unpack (b : Byte) : (Flags.unpack b).pack = b &&& 0x1F := by
  refine BitVec.eq_of_getLsbD_eq fun i hi => ?_
  rw [(Flags.unpack b).getLsbD_pack ⟨i, hi⟩, BitVec.getLsbD_and]
  interval_cases i <;> simp [Flags.unpack]

/-- A packed byte is a byte packed again, so it is its own low five bits. -/
theorem Flags.pack_and_high (f : Flags) : f.pack &&& 0xE0 = 0 :=
  calc f.pack &&& 0xE0 = (Flags.unpack f.pack).pack &&& 0xE0 := by rw [Flags.unpack_pack]
    _ = f.pack &&& (0x1F &&& 0xE0) := by rw [Flags.pack_unpack, BitVec.and_assoc]
    _ = 0 := BitVec.and_zero

/-- Settles O18: the bits of the packed byte, and packing and unpacking undoing each other. -/
theorem packedStatusByte : Obligations.PackedStatusByte :=
  ⟨fun f => ⟨f.getLsbD_pack 0, f.getLsbD_pack 1, f.getLsbD_pack 2, f.getLsbD_pack 3, f.getLsbD_pack 4,
    f.pack_and_high, f.unpack_pack⟩, Flags.pack_unpack⟩

end Sys2Proof.Machine

/-! ### The state at session start -/

namespace Sys2Proof.Machine

/-- Every register of the launch state (log 1). -/
theorem reset_regs_get (r : RegNum) : State.reset.regs.get r = launchRegister := by
  simp [Regs.get, State.reset]

/-- Settles O52: no run has begun, so every clause on the log and the step count holds of an empty one. -/
theorem resetMeetsTheInvariant : Obligations.ResetMeetsTheInvariant where
  memory := reset_mem_wf
  ceiling := Nat.zero_le _
  counted := Nat.zero_le _
  lastEnds := fun _ he => nomatch he
  running := fun h => nomatch h
  session := fun _ => rfl

/-- Settles O53: the launch state's registers, flags and memory are the model's zeros. -/
theorem sessionStart : Obligations.SessionStart :=
  ⟨rfl, rfl, rfl, rfl, reset_regs_get, rfl, fun _ => rfl⟩

end Sys2Proof.Machine

/-! ### The three outcomes of an access -/

namespace Sys2Proof.Machine

/-- An access above VALID_TOP is a BusFault (20_memory.md R44). -/
theorem checkAccess_above {a : Word} (h : validTop < a) (sz : Size) : checkAccess a sz = .error ⟨.busFault, a⟩ :=
  if_pos h

/-- A word access at a valid odd address is OddAddress (20_memory.md R45, D10). -/
theorem checkAccess_odd {a : Word} (h : a ≤ validTop) (odd : a.getLsbD 0 = true) :
    checkAccess a .word = .error ⟨.oddAddress, a⟩ := by
  unfold checkAccess
  rw [if_neg (BitVec.not_lt.2 h), if_pos ⟨rfl, odd⟩]

theorem checkAccess_byte {a : Word} (h : a ≤ validTop) : checkAccess a .byte = .ok () :=
  (checkAccess_ok_iff ..).2 ⟨h, nofun⟩

theorem checkAccess_even {a : Word} (h : a ≤ validTop) (even : a.getLsbD 0 = false) : checkAccess a .word = .ok () :=
  (checkAccess_ok_iff ..).2 ⟨h, fun _ => even⟩

/-- The little-endian word as the spec writes it, `low | (high << 8)` (20_memory.md R42). -/
theorem wordOfBytes_eq_or (low high : Byte) : wordOfBytes low high = low.setWidth 16 ||| high.setWidth 16 <<< 8 := by
  refine BitVec.eq_of_getLsbD_eq fun i hi => ?_
  simp only [wordOfBytes, BitVec.getLsbD_append, BitVec.getLsbD_or, BitVec.getLsbD_setWidth, BitVec.getLsbD_shiftLeft]
  by_cases h : i < 8
  · simp [h, hi]
  · have hlow : low.getLsbD i = false := BitVec.getLsbD_of_ge low i (by omega)
    have hhigh : i - 8 < 16 := by omega
    simp [h, hi, hlow, hhigh]

/-- Settles O6: a read or write above VALID_TOP fails as its check does, and a valid read gives its one or two bytes. -/
theorem readsAreLittleEndianAndBounded : Obligations.ReadsAreLittleEndianAndBounded := by
  refine fun m a => ⟨fun above sz v => ?_, fun valid => ?_, fun valid even => ?_⟩
  · have hc := checkAccess_above above sz
    exact ⟨(memRead_error_iff ..).2 hc, (memWrite_error_iff ..).2 hc⟩
  · exact (memRead_ok_iff ..).2 ⟨checkAccess_byte valid, rfl⟩
  · exact (memRead_ok_iff ..).2 ⟨checkAccess_even valid even, (wordOfBytes_eq_or _ _).symm⟩

/-- Settles O7: at an odd address the check fails for a word and passes for a byte. -/
theorem oddWordAccessFaults : Obligations.OddWordAccessFaults := by
  intro m a v valid odd
  have hword := checkAccess_odd valid odd
  have hbyte := checkAccess_byte valid
  exact ⟨(memRead_error_iff ..).2 hword, (memWrite_error_iff ..).2 hword,
    ⟨_, (memRead_ok_iff ..).2 ⟨hbyte, rfl⟩⟩, ⟨_, (memWrite_ok_iff ..).2 ⟨hbyte, rfl⟩⟩⟩

/-- A word's low byte, taken back to a word, is the word's low eight bits. -/
theorem setWidth_lowByte (v : Word) : (lowByte v).setWidth 16 = v &&& 0xFF := by
  refine BitVec.eq_of_toNat_eq ?_
  simp [lowByte, Nat.and_two_pow_sub_one_eq_mod v.toNat 8]; omega

/-- Settles O8, size by size: a read after a write is a read of the bytes the write put there. -/
theorem writeReplacesItsBytesOnly : Obligations.WriteReplacesItsBytesOnly := by
  intro m a v sz valid even
  have hc : checkAccess a sz = .ok () := (checkAccess_ok_iff ..).2 ⟨valid, even⟩
  refine ⟨_, (memWrite_ok_iff ..).2 ⟨hc, rfl⟩, (memRead_ok_iff ..).2 ⟨hc, ?_⟩, ?_⟩
  · cases sz
    case word => simp
    case byte => simp [setWidth_lowByte]
  · cases sz
    case word =>
      refine ⟨by simp [Memory.read_writeWordAt, lowByte], fun _ => by simp [Memory.read_writeWordAt, highByte],
        fun x hlow hhigh => ?_⟩
      simp [Memory.read_writeWordAt, hlow, hhigh rfl]
    case byte => exact ⟨Memory.read_write_self .., nofun, fun x hx _ => Memory.read_write_ne _ _ hx⟩

end Sys2Proof.Machine

/-! ### What an instruction can end in

An instruction completes with at most one write to memory, takes one fault, or halts the run. Each family reaches memory
through one `commit`. -/

namespace Sys2Proof.Machine

/-- The memory is the same, or one write that passed its checks made it. -/
def AtMostOneWrite (m m' : Memory) : Prop := m' = m ∨ ∃ a sz v, memWrite m a sz v = .ok m'

theorem AtMostOneWrite.refl (m : Memory) : AtMostOneWrite m m := .inl rfl

theorem AtMostOneWrite.wf {m m' : Memory} (h : AtMostOneWrite m m') (hm : m.wf = true) : m'.wf = true := by
  obtain rfl | ⟨a, sz, v, hw⟩ := h
  · exact hm
  · exact memWrite_wf hm hw

theorem commit_atMostOneWrite {sz : Size} {wb : WriteBack} {v : Word} {w w' : Work} (h : commit sz wb v w = .ok w') :
    AtMostOneWrite w.mem w'.mem := by
  rcases commit_cases h with ⟨-, rfl⟩ | ⟨r, -, rfl⟩ | ⟨a, m, -, hw, rfl⟩ | ⟨a, m, -, hw, rfl⟩
  · exact .refl _
  · exact .refl _
  · exact .inr ⟨a, .word, v, hw⟩
  · exact .inr ⟨a, .byte, v, hw⟩

theorem finishAlu_atMostOneWrite {sz : Size} {wb : WriteBack} {out : Alu} {w w' : Work}
    (h : finishAlu sz wb out w = .ok w') : AtMostOneWrite w.mem w'.mem := by
  rcases finishAlu_ok_iff.1 h with ⟨-, rfl⟩ | ⟨r, w'', -, hc, rfl⟩
  · exact .refl _
  · have hmem := commit_atMostOneWrite hc
    exact hmem

/-- The states an instruction begun in `s` can end in. -/
inductive InstrEnd (s : State) : State → Prop
  | completed (extra : Nat) (w : Work) (mem : AtMostOneWrite s.mem w.mem) : InstrEnd s (complete s extra w)
  | faulted (f : Trap) : InstrEnd s (takeFault s f)
  | halted : InstrEnd s (stopRun s .halted)

theorem runInstr_end {body : Work → Except Trap (Nat × Work)} {s t : State}
    (hbody : ∀ extra w, body (Work.ofState s) = .ok (extra, w) → AtMostOneWrite s.mem w.mem)
    (h : runInstr body s = .next t) : InstrEnd s t := by
  rcases runInstr_cases body s with ⟨extra, w, hb, he⟩ | ⟨f, -, he⟩ <;> cases he.symm.trans h
  · exact .completed extra w (hbody extra w hb)
  · exact .faulted f

theorem exec2_end {sz : Size} {op : Config → Flags → Word → Word → Alu} {src dst : Operand} {s t : State}
    (h : exec2 sz op src dst s = .next t) : InstrEnd s t := by
  rcases exec2_cases sz op src dst s with ⟨S, D, w₁, w₂, w₃, hS, hD, hF, he⟩ | ⟨f, he⟩ <;> cases he.symm.trans h
  · have hmem : w₂.mem = s.mem := (resolve_flags_mem hD).2.trans (resolve_flags_mem hS).2
    exact .completed _ w₃ (hmem ▸ finishAlu_atMostOneWrite hF)
  · exact .faulted f

theorem exec1_end {sz : Size} {asDest : Bool} {op : Config → Flags → Word → Alu} {o : Operand} {s t : State}
    (h : exec1 sz asDest op o s = .next t) : InstrEnd s t := by
  rcases exec1_cases sz asDest op o s with ⟨O, w₁, w₂, hO, hF, he⟩ | ⟨f, he⟩ <;> cases he.symm.trans h
  · have hmem : w₁.mem = s.mem := (resolve_flags_mem hO).2
    exact .completed _ w₂ (hmem ▸ finishAlu_atMostOneWrite hF)
  · exact .faulted f

theorem execMfps_end {dst : Operand} {s t : State} (h : execMfps dst s = .next t) : InstrEnd s t := by
  refine runInstr_end (fun extra w hb => ?_) h
  simp only [except_bind_ok, Except.ok.injEq, Prod.mk.injEq] at hb
  obtain ⟨⟨O, w₁⟩, hO, w₂, hC, -, rfl⟩ := hb
  have hmem : w₁.mem = s.mem := (resolve_flags_mem hO).2
  exact hmem ▸ commit_atMostOneWrite hC

theorem execBranch_end {taken : Flags → Bool} {disp : Int} {s t : State} (h : execBranch taken disp s = .next t) :
    InstrEnd s t := by
  refine runInstr_end (fun extra w hb => ?_) h
  split at hb <;> cases hb <;> exact .refl _

theorem execJmp_end {dst : Operand} {s t : State} (h : execJmp dst s = .next t) : InstrEnd s t := by
  refine runInstr_end (fun extra w hb => ?_) h
  split at hb
  · cases hb
  · obtain ⟨⟨O, w₁⟩, hO, hea⟩ := (except_bind_ok ..).1 hb
    have hmem : w₁.mem = s.mem := (resolve_flags_mem hO).2
    cases hO' : O.ea <;> simp only [hO', reduceCtorEq, Except.ok.injEq, Prod.mk.injEq] at hea
    obtain ⟨-, rfl⟩ := hea
    exact .inl hmem

theorem exec_end {i : Instr} {s t : State} (h : exec i s = .next t) : InstrEnd s t := by
  cases instr_family i with
  | twoOperand sz op src dst _ heq => exact exec2_end (heq ▸ h)
  | oneOperand sz asDest op o _ heq => exact exec1_end (heq ▸ h)
  | mfps o heq => subst heq; exact execMfps_end h
  | branch taken disp _ heq => exact execBranch_end (heq ▸ h)
  | jmp o heq => subst heq; exact execJmp_end h
  | halt heq => subst heq; cases h; exact .halted

end Sys2Proof.Machine

/-! ### The invariant

Outside the ends and the start of a run a step leaves the run's fields as they are (`RunKept`), and the invariant goes over;
the rest is one lemma for each way the log or the FSM changes. -/

namespace Sys2Proof.Machine

/-- The FSM, the count, the log and the parameters are the same, and memory has at most one write more. -/
structure RunKept (s t : State) : Prop where
  fsm : t.fsm = s.fsm := by rfl
  steps : t.steps = s.steps := by rfl
  faultLog : t.faultLog = s.faultLog := by rfl
  config : t.config = s.config := by rfl
  mem : AtMostOneWrite s.mem t.mem := by exact .refl _

theorem Inv.of_runKept {s t : State} (h : Inv s) (kept : RunKept s t) (session : t.session = .ended → t.fsm = .idle) :
    Inv t where
  memory := kept.mem.wf h.memory
  ceiling := by rw [kept.steps, kept.config]; exact h.ceiling
  counted := by rw [kept.steps, kept.faultLog]; exact h.counted
  lastEnds := by rw [kept.faultLog]; exact h.lastEnds
  running := by rw [kept.fsm, kept.steps, kept.faultLog]; exact h.running
  session := session

/-! #### Running -/

/-- A run that stops with no new log entry keeps its log and its count. -/
theorem Inv.stopRun {s : State} (h : Inv s) (reason : StopReason) : Inv (stopRun s reason) where
  memory := h.memory
  ceiling := h.ceiling
  counted := h.counted
  lastEnds := h.lastEnds
  running := nofun
  session _ := rfl

/-- A run that stops with a last log entry: no entry before it ends the run, and there is room for one. -/
theorem Inv.stopRun_logged {s : State} (h : Inv s) (run : s.fsm = .running) (e : LogEntry) (reason : StopReason) :
    Inv (Machine.stopRun { s with faultLog := s.faultLog ++ [e] } reason) := by
  obtain ⟨hlen, hnone⟩ := h.running run
  exact {
    memory := h.memory
    ceiling := h.ceiling
    counted := by simpa using hlen
    lastEnds := by simpa using hnone
    running := nofun
    session := fun _ => rfl }

/-- Below the ceiling the count can go up by one. -/
theorem Inv.countStep {s : State} (h : Inv s) (below : s.steps ≠ s.config.stepLimit) : Inv (countStep s) where
  memory := h.memory
  ceiling := Nat.lt_of_le_of_ne h.ceiling below
  counted := Nat.le_succ_of_le h.counted
  lastEnds := h.lastEnds
  running run := ⟨Nat.le_succ_of_le (h.running run).1, (h.running run).2⟩
  session := h.session

/-- The fault of an instruction is not one that ends the run (60_exceptions.md R279). -/
theorem Trap.logEntry_endsRun (f : Trap) (pc : Word) : (f.logEntry pc).endsRun = false := by
  cases f <;> rfl

/-- A fault belongs to its step, which is counted before the instruction runs (44_execution_loop.md R213, R219). -/
theorem Inv.takeFault {s : State} (h : Inv s) (run : s.fsm = .running) (room : s.faultLog.length < s.steps) (f : Trap) :
    Inv (takeFault s f) := by
  obtain ⟨-, hnone⟩ := h.running run
  exact {
    memory := h.memory
    ceiling := h.ceiling
    counted := by simpa using Nat.le_of_lt room
    lastEnds := by simpa using hnone
    running := fun _ => ⟨by simpa using room, by
      simp only [takeFault_faultLog, List.mem_append, List.mem_singleton]
      rintro e (he | rfl)
      · exact hnone e he
      · exact f.logEntry_endsRun s.pc⟩
    session := h.session }

theorem InstrEnd.inv {s t : State} (he : InstrEnd s t) (h : Inv s) (run : s.fsm = .running)
    (room : s.faultLog.length < s.steps) : Inv t := by
  cases he with
  | completed extra w mem => exact h.of_runKept { mem } h.session
  | faulted f => exact h.takeFault run room f
  | halted => exact h.stopRun .halted

theorem runStep_inv {s t : State} (h : Inv s) (run : s.fsm = .running) (hstep : runStep s = .next t) : Inv t := by
  have room : (countStep s).faultLog.length < (countStep s).steps := Nat.lt_succ_of_le (h.running run).1
  rcases runStep_cases s with ⟨e, -, he⟩ | ⟨-, he⟩ | ⟨W, -, -, -, he⟩ | ⟨W, i, -, -, below, -, he⟩ |
    ⟨W, e, -, -, below, -, he⟩
  · cases he.symm.trans hstep; exact h.stopRun_logged run _ _
  · cases he.symm.trans hstep; exact h.stopRun _
  · cases he.symm.trans hstep; exact h.stopRun_logged run _ _
  · exact (exec_end (he.symm.trans hstep)).inv (h.countStep below) run room
  · cases he.symm.trans hstep; exact (h.countStep below).takeFault run room _

/-! #### Idle -/

/-- A run starts with nothing counted and nothing logged, in a session that has not ended (44_execution_loop.md R211). -/
theorem Inv.startRun {s : State} (h : Inv s) (active : s.session = .active) (addr : Word) : Inv (startRun s addr) where
  memory := h.memory
  ceiling := Nat.zero_le _
  counted := Nat.zero_le _
  lastEnds := nofun
  running _ := ⟨Nat.zero_le _, nofun⟩
  session ended := nomatch active.symm.trans ended

theorem consoleMemRead_runKept (s : State) (a : Word) : RunKept s (consoleMemRead s a) := by
  unfold consoleMemRead
  split <;> exact {}

/-- MEM_WRITE is the one console command that writes memory, and it makes one checked write (45_console_host.md R246). -/
theorem consoleMemWrite_runKept (s : State) (a : Word) (v : Nat) : RunKept s (consoleMemWrite s a v) := by
  unfold consoleMemWrite hostWrite
  cases hw : memWrite s.mem a (paritySize a) (BitVec.ofNat 16 v) with
  | error e => exact {}
  | ok m => exact { mem := .inr ⟨a, _, _, hw⟩ }

theorem consoleContinue_runKept (s : State) : RunKept s (consoleContinue s) := by
  unfold consoleContinue
  split
  · exact {}
  · exact consoleMemRead_runKept s _
  · exact {}

/-- EXEC_AT starts a run; every other command leaves the last run as it is. -/
theorem runCommand_cases (s : State) (c : Command) :
    (∃ a, c = .execAt a ∧ runCommand s c = startRun s a) ∨ RunKept s (runCommand s c) := by
  cases c with
  | execAt a => exact .inl ⟨a, rfl, rfl⟩
  | memRead a => exact .inr (consoleMemRead_runKept s a)
  | memWrite a v => exact .inr (consoleMemWrite_runKept s a v)
  | continuation => exact .inr (consoleContinue_runKept s)
  | regRead | regWrite | pswRead | pswWrite | quit => exact .inr {}

theorem runLine_inv {s : State} (h : Inv s) (idle : s.fsm = .idle) (active : s.session = .active) (line : List Char) :
    Inv (runLine s line) := by
  unfold runLine
  split
  next c _ =>
    rcases runCommand_cases s c with ⟨a, -, hc⟩ | kept
    · rw [hc]; exact h.startRun active a
    · exact h.of_runKept kept fun _ => kept.fsm.trans idle
  next => exact h.of_runKept {} h.session

theorem consoleStep_inv {s t : State} (h : Inv s) (idle : s.fsm = .idle) (hstep : consoleStep s = .next t) : Inv t := by
  unfold consoleStep at hstep
  split at hstep
  next => cases hstep
  next active =>
    split at hstep <;> cases hstep
    next => exact h
    next line rest _ => exact runLine_inv (s := { s with input := rest }) (h.of_runKept {} h.session) idle active line

/-- Settles O51: a step is one of the loop while Running and one of the console while Idle, and each kind keeps the
invariant. -/
theorem stepKeepsTheInvariant : Obligations.StepKeepsTheInvariant := by
  intro s t h hstep
  unfold step at hstep
  cases hfsm : s.fsm <;> simp only [hfsm] at hstep
  case running => exact runStep_inv h hfsm hstep
  case idle => exact consoleStep_inv h hfsm hstep

end Sys2Proof.Machine

/-! ### Encoding

Each form's encoding is characterised by the fields the decoder reads (`encodeTwo_eq_iff`, `encodeOne_eq_iff`,
`encodeBranch_eq_iff`), each opcode table by the encoding of its entries. -/

namespace Sys2Proof

/-! #### Operand fields and displacements -/

theorem field_lt (W : Word) (hi lo : Nat) : field W hi lo < 2 ^ (hi + 1 - lo) := Nat.mod_lt _ (Nat.two_pow_pos _)

theorem modeOfCode_code (m : Mode) : modeOfCode m.code = m := by cases m <;> rfl

theorem code_modeOfCode {n : Nat} (h : n < 8) : (modeOfCode n).code = n := by
  interval_cases n <;> rfl

theorem Operand.code_injective : Function.Injective Operand.code := by
  rintro ⟨m, r⟩ ⟨m', r'⟩ h
  simp only [Operand.code] at h
  have hmode : m.code = m'.code := by omega
  have hreg : r.val = r'.val := by omega
  rw [← modeOfCode_code m, hmode, modeOfCode_code, Fin.ext hreg]

theorem field_add (W : Word) (lo k : Nat) : field W (lo + k) lo = W.toNat / 2 ^ lo % 2 ^ (k + 1) := by
  rw [field, show lo + k + 1 - lo = k + 1 by omega]

/-- The operand read at bit `lo` has the six bits from `lo` as its code (30_encoding.md R66). -/
theorem code_operandAt (W : Word) (lo : Nat) : (operandAt W lo).code = field W (lo + 5) lo := by
  have hmode : field W (lo + 5) (lo + 3) = W.toNat / 2 ^ lo / 8 % 8 := by
    rw [Nat.div_div_eq_div_mul]
    exact (field_add W (lo + 3) 2).trans (by rw [pow_add]; rfl)
  have hreg : field W (lo + 2) lo = W.toNat / 2 ^ lo % 8 := field_add W lo 2
  have hcode : field W (lo + 5) lo = W.toNat / 2 ^ lo % 64 := field_add W lo 5
  have hm := code_modeOfCode (n := field W (lo + 5) (lo + 3)) (by omega)
  simp only [Operand.code, operandAt, hm, regOfCode]
  omega

theorem operandAt_eq_iff {W : Word} {lo : Nat} {o : Operand} : operandAt W lo = o ↔ field W (lo + 5) lo = o.code := by
  rw [← Operand.code_injective.eq_iff, code_operandAt]

theorem signExtend8_inRange {n : Nat} (h : n < 256) : dispInRange (signExtend8 n) := by
  unfold dispInRange signExtend8
  split <;> omega

/-- On the displacements of a branch, `sext_8` undoes `disp & 0xFF` (30_encoding.md R74, R79). -/
theorem signExtend8_eq_iff {n : Nat} {disp : Int} (hn : n < 256) (hd : dispInRange disp) :
    signExtend8 n = disp ↔ n = (disp % 0x100).toNat := by
  unfold dispInRange at hd
  unfold signExtend8
  split <;> omega

/-! #### The three forms -/

theorem encodeTwo_eq_iff {opcode : Nat} {src dst : Operand} {W : Word} (h : opcode < 16) :
    encodeTwo opcode src dst = W ↔ field W 15 12 = opcode ∧ operandAt W 6 = src ∧ operandAt W 0 = dst := by
  have := src.code_lt
  have := dst.code_lt
  rw [operandAt_eq_iff, operandAt_eq_iff, BitVec.toNat_eq]
  simp only [encodeTwo, field, BitVec.toNat_ofNat]
  omega

theorem encodeOne_eq_iff {sizeBit op9 : Nat} {o : Operand} {W : Word} (hb : sizeBit < 2) (h9 : op9 < 512) :
    encodeOne sizeBit op9 o = W ↔ field W 15 15 = sizeBit ∧ field W 14 6 = op9 ∧ operandAt W 0 = o := by
  have := o.code_lt
  rw [operandAt_eq_iff, BitVec.toNat_eq]
  simp only [encodeOne, field, BitVec.toNat_ofNat]
  omega

/-- JMP's fixed bits are a size bit and an op9 of the one-operand form (30_encoding.md R65). -/
theorem encodeJmp_eq_iff {dst : Operand} {W : Word} :
    encodeOne 0 0o001 dst = W ↔ field W 15 6 = 0o001 ∧ operandAt W 0 = dst := by
  have hbits : field W 15 15 = 0 ∧ field W 14 6 = 0o001 ↔ field W 15 6 = 0o001 := by
    simp only [field]
    omega
  rw [encodeOne_eq_iff (by decide) (by decide), ← and_assoc, hbits]

theorem encodeBranch_eq_iff {code : Nat} {disp : Int} {W : Word} (hc : code < 256) (hd : dispInRange disp) :
    encodeBranch code disp = W ↔ field W 15 8 = code ∧ signExtend8 (field W 7 0) = disp := by
  have : (disp % 0x100).toNat < 0x100 := by omega
  rw [signExtend8_eq_iff (field_lt W 7 0) hd, BitVec.toNat_eq]
  simp only [encodeBranch, field, BitVec.toNat_ofNat]
  omega

/-! #### The opcode tables -/

theorem encode_of_twoOperand {opcode : Nat} {src dst : Operand} {i : Instr} (h : twoOperand opcode src dst = some i) :
    encode i = encodeTwo opcode src dst ∧ i.wellFormed = true := by
  unfold twoOperand at h
  split at h <;> cases h <;> exact ⟨rfl, rfl⟩

theorem encode_of_oneOperand {sizeBit op9 : Nat} {o : Operand} {i : Instr} (h : oneOperand sizeBit op9 o = some i) :
    encode i = encodeOne sizeBit op9 o ∧ i.wellFormed = true := by
  unfold oneOperand at h
  split at h <;> cases h <;> exact ⟨rfl, rfl⟩

/-- Every row of the one-operand table has op9 in 050 to 067 (30_encoding.md R77). -/
theorem op9_of_oneOperand {sizeBit op9 : Nat} {o : Operand} {i : Instr} (h : oneOperand sizeBit op9 o = some i) :
    sizeBit < 2 ∧ 0o050 ≤ op9 ∧ op9 ≤ 0o067 := by
  unfold oneOperand at h
  split at h <;> cases h <;> decide

theorem oneOperand_eq_none_of_op9 {sizeBit op9 : Nat} {o : Operand} (h : op9 < 0o050 ∨ 0o067 < op9) :
    oneOperand sizeBit op9 o = none := by
  refine Option.eq_none_iff_forall_ne_some.2 fun i hi => ?_
  have hrow := op9_of_oneOperand hi
  omega

/-- The branches by the code in bits 15-8 (30_encoding.md R64, R72). -/
def branchOfCode (code : Nat) (disp : Int) : Option Instr :=
  match code with
  | 0x01 => some (.br disp)
  | 0x02 => some (.bne disp)
  | 0x03 => some (.beq disp)
  | 0x80 => some (.bpl disp)
  | 0x81 => some (.bmi disp)
  | _ => none

theorem encode_of_branchOfCode {code : Nat} {disp : Int} {i : Instr} (h : branchOfCode code disp = some i) :
    encode i = encodeBranch code disp ∧ i.wellFormed = decide (dispInRange disp) := by
  unfold branchOfCode at h
  split at h <;> cases h <;> exact ⟨rfl, rfl⟩

theorem twoOperand_eq_none_iff {opcode : Nat} {src dst : Operand} :
    twoOperand opcode src dst = none ↔ opcode = 0b0000 ∨ opcode = 0b0111 ∨ opcode = 0b1000 ∨ 0b1111 ≤ opcode := by
  unfold twoOperand
  split
  case h_13 => simp only [imp_false, true_iff] at *; omega
  all_goals simp

theorem oneOperand_word_eq_none_iff {op9 : Nat} {o : Operand} :
    oneOperand 0 op9 o = none ↔ op9 ∉ [0o050, 0o051, 0o052, 0o053, 0o054, 0o057, 0o062, 0o063] := by
  unfold oneOperand
  split <;> simp_all

theorem oneOperand_byte_eq_none_iff {op9 : Nat} {o : Operand} :
    oneOperand 1 op9 o = none ↔
      op9 ∉ [0o050, 0o051, 0o052, 0o053, 0o054, 0o057, 0o062, 0o063, 0o064, 0o067] := by
  unfold oneOperand
  split <;> simp_all

/-- The windows of the branches and of JMP are the words with their fixed bits (30_encoding.md R72, R73). -/
theorem branchOrJump_eq (W : Word) :
    branchOrJump W = (branchOfCode (field W 15 8) (signExtend8 (field W 7 0))).or
      (if field W 15 6 = 0o001 then some (.jmp (operandAt W 0)) else none) := by
  have hcode : field W 15 8 = W.toNat / 256 % 256 := rfl
  have hjmp : field W 15 6 = W.toNat / 64 % 1024 := rfl
  have hW := W.isLt
  unfold branchOfCode
  split
  case h_6 =>
    simp only [imp_false] at *
    have hwindow : 0o000100 ≤ W.toNat ∧ W.toNat ≤ 0o000177 ↔ field W 15 6 = 0o001 := by omega
    simp (disch := omega) only [branchOrJump, if_neg, Option.none_or, hwindow]
  all_goals simp (disch := omega) only [branchOrJump, if_pos, if_neg, Option.some_or]

theorem encode_of_branchOrJump {W : Word} {i : Instr} (h : branchOrJump W = some i) :
    encode i = W ∧ i.wellFormed = true := by
  rw [branchOrJump_eq, Option.or_eq_some_iff] at h
  rcases h with hbr | ⟨-, hjmp⟩
  · have hrange := signExtend8_inRange (field_lt W 7 0)
    obtain ⟨henc, hwf⟩ := encode_of_branchOfCode hbr
    exact ⟨henc.trans ((encodeBranch_eq_iff (field_lt W 15 8) hrange).2 ⟨rfl, rfl⟩),
      hwf.trans (decide_eq_true hrange)⟩
  · obtain ⟨hrow, hi⟩ := Option.ite_none_right_eq_some.1 hjmp
    cases hi
    exact ⟨encodeJmp_eq_iff.2 ⟨hrow, rfl⟩, rfl⟩

theorem branchOrJump_eq_none_iff {W : Word} :
    branchOrJump W = none ↔ ¬(0o000400 ≤ W.toNat ∧ W.toNat ≤ 0o001777) ∧
      ¬(0o000100 ≤ W.toNat ∧ W.toNat ≤ 0o000177) ∧ ¬(0o100000 ≤ W.toNat ∧ W.toNat ≤ 0o100777) := by
  simp only [branchOrJump]
  split_ifs <;> simp <;> omega

theorem window_of_branchOrJump {W : Word} {i : Instr} (h : branchOrJump W = some i) :
    0o000100 ≤ W.toNat ∧ W.toNat ≤ 0o001777 ∨ 0o100000 ≤ W.toNat ∧ W.toNat ≤ 0o100777 := by
  have hnone : branchOrJump W ≠ none := by simp [h]
  rw [Ne, branchOrJump_eq_none_iff] at hnone
  omega

/-! #### The decoder

The three forms and the word 0 are pairwise disjoint, so the order in which the decoder tries them does not matter
(30_encoding.md R77). -/

theorem decodeWord_of_twoOperand {W : Word} {i : Instr}
    (h : twoOperand (field W 15 12) (operandAt W 6) (operandAt W 0) = some i) : decodeWord W = .ok i := by
  have hW : W ≠ 0 := by
    rintro rfl
    cases h
  simp only [decodeWord, if_neg hW, h]

theorem decodeWord_of_oneOperand {W : Word} {i : Instr}
    (h : oneOperand (field W 15 15) (field W 14 6) (operandAt W 0) = some i) : decodeWord W = .ok i := by
  have hrow := op9_of_oneOperand h
  have hW : W ≠ 0 := by
    rintro rfl
    cases h
  have htwo : twoOperand (field W 15 12) (operandAt W 6) (operandAt W 0) = none :=
    twoOperand_eq_none_iff.2 (by simp only [field] at *; omega)
  simp only [decodeWord, if_neg hW, htwo, h]

theorem decodeWord_of_branchOrJump {W : Word} {i : Instr} (h : branchOrJump W = some i) : decodeWord W = .ok i := by
  have hwindow := window_of_branchOrJump h
  have hW : W ≠ 0 := by
    rintro rfl
    cases h
  have htwo : twoOperand (field W 15 12) (operandAt W 6) (operandAt W 0) = none :=
    twoOperand_eq_none_iff.2 (by simp only [field]; omega)
  have hone : oneOperand (field W 15 15) (field W 14 6) (operandAt W 0) = none :=
    oneOperand_eq_none_of_op9 (by simp only [field]; omega)
  simp only [decodeWord, if_neg hW, htwo, hone, h]

theorem decodeWord_ok_cases {W : Word} {i : Instr} (h : decodeWord W = .ok i) :
    W = 0 ∧ i = .halt ∨ twoOperand (field W 15 12) (operandAt W 6) (operandAt W 0) = some i ∨
      oneOperand (field W 15 15) (field W 14 6) (operandAt W 0) = some i ∨ branchOrJump W = some i := by
  unfold decodeWord at h
  split at h
  case isTrue hW => cases h; exact .inl ⟨hW, rfl⟩
  split at h
  case h_1 htwo => cases h; exact .inr (.inl htwo)
  split at h
  case h_1 hone => cases h; exact .inr (.inr (.inl hone))
  split at h
  case h_1 hbj => cases h; exact .inr (.inr (.inr hbj))
  cases h

theorem decodeWord_eq_error_iff {W : Word} {e : DecodeError} :
    decodeWord W = .error e ↔ e = .unknown W ∧ W ≠ 0 ∧
      twoOperand (field W 15 12) (operandAt W 6) (operandAt W 0) = none ∧
      oneOperand (field W 15 15) (field W 14 6) (operandAt W 0) = none ∧ branchOrJump W = none := by
  unfold decodeWord
  split
  case isTrue hW => simp [hW]
  case isFalse hW =>
    split
    case h_1 htwo => simp [htwo]
    case h_2 htwo =>
      split
      case h_1 hone => simp [hone]
      case h_2 hone =>
        split
        case h_1 hbj => simp [hbj]
        case h_2 hbj =>
          refine ⟨fun h => ?_, fun ⟨he, _⟩ => he ▸ rfl⟩
          cases h
          exact ⟨rfl, hW, htwo, hone, hbj⟩

/-! #### Round trips -/

theorem decodeWord_encodeTwo {opcode : Nat} {src dst : Operand} {i : Instr} (h : twoOperand opcode src dst = some i) :
    decodeWord (encodeTwo opcode src dst) = .ok i := by
  have hopcode : opcode < 16 := by
    have hnone : twoOperand opcode src dst ≠ none := by simp [h]
    rw [Ne, twoOperand_eq_none_iff] at hnone
    omega
  obtain ⟨hop, hsrc, hdst⟩ := (encodeTwo_eq_iff hopcode).1 (Eq.refl (encodeTwo opcode src dst))
  exact decodeWord_of_twoOperand (by rw [hop, hsrc, hdst, h])

theorem decodeWord_encodeOne {sizeBit op9 : Nat} {o : Operand} {i : Instr} (h : oneOperand sizeBit op9 o = some i) :
    decodeWord (encodeOne sizeBit op9 o) = .ok i := by
  obtain ⟨hbit, -, hle⟩ := op9_of_oneOperand h
  obtain ⟨hb, h9, ho⟩ := (encodeOne_eq_iff hbit (by omega)).1 (Eq.refl (encodeOne sizeBit op9 o))
  exact decodeWord_of_oneOperand (by rw [hb, h9, ho, h])

theorem decodeWord_encodeBranch {code : Nat} {disp : Int} {i : Instr} (hc : code < 256)
    (hd : decide (dispInRange disp) = true) (h : branchOfCode code disp = some i) :
    decodeWord (encodeBranch code disp) = .ok i := by
  obtain ⟨hcode, hdisp⟩ := (encodeBranch_eq_iff hc (of_decide_eq_true hd)).1 (Eq.refl (encodeBranch code disp))
  refine decodeWord_of_branchOrJump ?_
  rw [branchOrJump_eq, hcode, hdisp, h, Option.some_or]

theorem decodeWord_encodeJmp (dst : Operand) : decodeWord (encodeOne 0 0o001 dst) = .ok (.jmp dst) := by
  obtain ⟨hjmp, hdst⟩ := encodeJmp_eq_iff.1 (Eq.refl (encodeOne 0 0o001 dst))
  have hcode : field (encodeOne 0 0o001 dst) 15 8 = 0 := by
    simp only [field] at *
    omega
  exact decodeWord_of_branchOrJump (by rw [branchOrJump_eq, hcode, hdst, if_pos hjmp]; rfl)

/-- Settles O1: each instruction is an entry of one of the tables, or JMP, or the halt sentinel. -/
theorem decodeOfEncode : Obligations.DecodeOfEncode
  | .mov _ _, _ | .cmp _ _, _ | .bit _ _, _ | .bic _ _, _ | .bis _ _, _ | .add _ _, _ | .movb _ _, _ | .cmpb _ _, _
  | .bitb _ _, _ | .bicb _ _, _ | .bisb _ _, _ | .sub _ _, _ => decodeWord_encodeTwo rfl
  | .clr _, _ | .com _, _ | .inc _, _ | .dec _, _ | .neg _, _ | .tst _, _ | .asr _, _ | .asl _, _ | .clrb _, _
  | .comb _, _ | .incb _, _ | .decb _, _ | .negb _, _ | .tstb _, _ | .asrb _, _ | .aslb _, _ | .mtps _, _
  | .mfps _, _ => decodeWord_encodeOne rfl
  | .br _, hd | .bne _, hd | .beq _, hd | .bpl _, hd | .bmi _, hd => decodeWord_encodeBranch (by decide) hd rfl
  | .jmp dst, _ => decodeWord_encodeJmp dst
  | .halt, _ => rfl

/-- Settles O2: the tables' entries encode to the fields they were found by. -/
theorem encodeOfDecode : Obligations.EncodeOfDecode := by
  intro W i h
  rcases decodeWord_ok_cases h with ⟨rfl, rfl⟩ | htwo | hone | hbj
  · exact ⟨rfl, rfl⟩
  · obtain ⟨henc, hwf⟩ := encode_of_twoOperand htwo
    exact ⟨henc.trans ((encodeTwo_eq_iff (field_lt W 15 12)).2 ⟨rfl, rfl, rfl⟩), hwf⟩
  · obtain ⟨henc, hwf⟩ := encode_of_oneOperand hone
    exact ⟨henc.trans ((encodeOne_eq_iff (field_lt W 15 15) (field_lt W 14 6)).2 ⟨rfl, rfl, rfl⟩), hwf⟩
  · exact encode_of_branchOrJump hbj

theorem decodeWord_eq_ok_iff {W : Word} {i : Instr} : decodeWord W = .ok i ↔ encode i = W ∧ i.wellFormed = true := by
  refine ⟨encodeOfDecode W i, ?_⟩
  rintro ⟨rfl, hwf⟩
  exact decodeOfEncode i hwf

/-! #### Windows and unknown words -/

theorem exists_encodeBranch_eq_iff {W : Word} {code : Nat} (hc : code < 256) :
    (∃ disp, encodeBranch code disp = W ∧ decide (dispInRange disp) = true) ↔
      code * 0x100 ≤ W.toNat ∧ W.toNat ≤ code * 0x100 + 0xFF := by
  have hfield : field W 15 8 = code ↔ code * 0x100 ≤ W.toNat ∧ W.toNat ≤ code * 0x100 + 0xFF := by
    have := W.isLt
    simp only [field]
    omega
  rw [← hfield]
  constructor
  · rintro ⟨disp, henc, hd⟩
    exact ((encodeBranch_eq_iff hc (of_decide_eq_true hd)).1 henc).1
  · intro hcode
    have hrange := signExtend8_inRange (field_lt W 7 0)
    exact ⟨_, (encodeBranch_eq_iff hc hrange).2 ⟨hcode, rfl⟩, decide_eq_true hrange⟩

theorem exists_encodeJmp_eq_iff {W : Word} :
    (∃ dst, encodeOne 0 0o001 dst = W) ↔ 0o000100 ≤ W.toNat ∧ W.toNat ≤ 0o000177 := by
  simp only [encodeJmp_eq_iff, exists_and_left, exists_eq', and_true]
  simp only [field]
  omega

/-- Settles O4: a word decodes to an instruction exactly if it is its encoding. -/
theorem branchAndJumpWindows : Obligations.BranchAndJumpWindows := by
  intro W
  simp only [decodeWord_eq_ok_iff]
  refine ⟨exists_encodeBranch_eq_iff (by decide), exists_encodeBranch_eq_iff (by decide),
    exists_encodeBranch_eq_iff (by decide), exists_encodeBranch_eq_iff (by decide),
    exists_encodeBranch_eq_iff (by decide), ?_⟩
  simpa [encode, Instr.wellFormed] using exists_encodeJmp_eq_iff (W := W)

/-- Settles O3, by bits 15-12: 0000 leaves the word rows and the low windows, 1000 the byte rows and the high windows, 0111
and 1111 nothing, and every other value is a two-operand opcode. -/
theorem unknownWordsAreTheListedOnes : Obligations.UnknownWordsAreTheListedOnes := by
  refine fun W => ⟨fun e h => (decodeWord_eq_error_iff.1 h).1, ?_⟩
  have hbit : field W 15 15 = field W 15 12 / 8 := by simp only [field]; omega
  have hop9 : field W 14 6 / 64 = field W 15 12 % 8 := by simp only [field]; omega
  have hop : field W 15 12 = W.toNat / 4096 := by simp only [field]; omega
  have hlt := field_lt W 15 12
  rw [decodeWord_eq_error_iff, branchOrJump_eq_none_iff, twoOperand_eq_none_iff, hbit, eq_self, true_and]
  refine and_congr_right fun _ => ?_
  obtain h | h | h | h : field W 15 12 = 0 ∨ field W 15 12 = 8 ∨ (field W 15 12 = 7 ∨ field W 15 12 = 15) ∨
    (field W 15 12 ≠ 0 ∧ field W 15 12 ≠ 7 ∧ field W 15 12 ≠ 8 ∧ field W 15 12 < 15) := by omega
  · have hhigh : ¬ (0o100000 ≤ W.toNat ∧ W.toNat ≤ 0o100777) := by omega
    simp [h, oneOperand_word_eq_none_iff, hhigh]
  · have hlow : ¬ (0o000400 ≤ W.toNat ∧ W.toNat ≤ 0o001777) := by omega
    have hjmp : ¬ (0o000100 ≤ W.toNat ∧ W.toNat ≤ 0o000177) := by omega
    simp [h, oneOperand_byte_eq_none_iff, hlow, hjmp]
  · have hone : oneOperand (field W 15 12 / 8) (field W 14 6) (operandAt W 0) = none :=
      oneOperand_eq_none_of_op9 (by omega)
    simp only [hone, true_and]
    omega
  · exact iff_of_false (by omega) (by omega)

/-- Settles O5: each word is the encoding of its instruction. -/
theorem sampleWordsDecode : Obligations.SampleWordsDecode := by
  simp only [Obligations.SampleWordsDecode, decodeWord_eq_ok_iff]
  decide

end Sys2Proof

/-! ### The addressing modes

Each mode but mode 0 ends in one read, of its operand; the modes that take a displacement or a pointer read it before.
`resolve_operand_read` and `resolve_error_of_first_read` say what such a mode rule makes of `resolve`. -/

namespace Sys2Proof.Machine

/-- The part of a register that an operand of a size sees (10_state.md R25, 40_addressing_modes.md R94). -/
theorem sized_eq (sz : Size) (v : Word) : sized sz v = if sz = .word then v else v &&& 0xFF := by
  cases sz <;> rfl

/-- A write of R0 to R6 changes that register only (44_execution_loop.md R214). -/
theorem writeReg_of_ne_pc {r : RegNum} (hr : r ≠ 7) (w : Work) (v : Word) :
    w.writeReg r v = { w with regs := w.regs.put r v } := by
  have hpc : decide (r = pcReg) = false := decide_eq_false hr
  simp [Work.writeReg, hpc]

/-- The base of modes 6 and 7 (40_addressing_modes.md R102). -/
theorem indexBase_eq (r : RegNum) (p : Word) (w : Work) :
    indexBase r p w = if r = 7 then p + 2 else w.regs.get r := rfl

theorem load_bind_of_ok {α : Type} {w : Work} {a v : Word} {sz : Size} (h : memRead w.mem a sz = .ok v)
    (k : Word → Except Trap α) : (w.load a sz >>= k) = k v := by
  rw [(load_ok_iff ..).2 h]
  rfl

section

variable {sz : Size} {o : Operand} {p : Word} {asDest : Bool} {w : Work}

/-- A mode rule whose first read fails makes that the resolve's fault. -/
theorem resolve_error_of_first_read {a : Word} {asz : Size} {k : Word → Except Trap (Desc × Work)} {e : AccessError}
    (hmode : resolveMode sz o p w = w.load a asz >>= k) (he : memRead w.mem a asz = .error e) :
    resolve sz o p asDest w = .error (.access e) := by
  have hload : w.load a asz = .error (.access e) := (load_error_iff ..).2 ⟨e, he, rfl⟩
  have hfail : resolveMode sz o p w = .error (.access e) := by rw [hmode, hload]; rfl
  simp only [resolve, hfail]

/-- A mode rule that comes down to reading its operand at `a` resolves to what is read, or to the read's fault. -/
theorem resolve_operand_read {a : Word} {tag : WriteBack} {extra : Nat} {w' : Work}
    (hmode : resolveMode sz o p w = w.load a sz >>= fun v => .ok (⟨v, tag, extra, some a⟩, w')) :
    (∀ v, memRead w.mem a sz = .ok v →
      resolve sz o p asDest w = .ok (⟨v, if asDest then tag else .discard, extra, some a⟩, w')) ∧
    ∀ e, memRead w.mem a sz = .error e → resolve sz o p asDest w = .error (.access e) := by
  refine ⟨fun v hv => ?_, fun e he => resolve_error_of_first_read hmode he⟩
  refine resolve_ok_iff.2 ⟨_, hmode.trans (load_bind_of_ok hv _), ?_⟩
  cases asDest <;> rfl

end

/-- Settles O11: mode 0 reads the register, and mode 1 is one operand read. -/
theorem registerAndDeferredModes : Obligations.RegisterAndDeferredModes := by
  simp only [Obligations.RegisterAndDeferredModes, ← memoryTag_eq, ← sized_eq]
  refine fun sz r p asDest w => ⟨resolve_register sz r p asDest w, ?_⟩
  rintro _ rfl
  exact resolve_operand_read rfl

/-- Settles O12: R0 to R6 take the first branch of modes 2 and 3, and their write leaves pcWritten. -/
theorem autoIncrementModes : Obligations.AutoIncrementModes := by
  simp only [Obligations.AutoIncrementModes, ← memoryTag_eq, ← incStep_eq]
  rintro sz r p _ asDest w hr rfl
  have hinc : resolveMode sz ⟨.autoInc, r⟩ p w = resolveAutoInc sz r w := if_neg hr
  have hdeferred : resolveMode sz ⟨.autoIncDeferred, r⟩ p w = resolveAutoIncDeferred sz r w := if_neg hr
  simp only [← writeReg_of_ne_pc hr]
  exact ⟨resolve_operand_read hinc, fun e => resolve_error_of_first_read hdeferred,
    fun a ha => resolve_operand_read (hdeferred.trans (load_bind_of_ok ha _))⟩

/-- Settles O13: the immediate is one operand read at p + 2; the absolute's address is read there first. -/
theorem immediateAndAbsoluteModes : Obligations.ImmediateAndAbsoluteModes :=
  fun _ _ _ _ => ⟨resolve_operand_read rfl, fun _ => resolve_error_of_first_read rfl,
    fun _ ha => resolve_operand_read (load_bind_of_ok ha _)⟩

/-- Settles O14: the register write comes first, and the reads after it see the same memory. -/
theorem autoDecrementModes : Obligations.AutoDecrementModes := by
  simp only [Obligations.AutoDecrementModes, ← memoryTag_eq, ← incStep_eq]
  refine fun sz r p asDest w => ⟨?_, ?_⟩
  · rintro _ rfl
    exact resolve_operand_read rfl
  · rintro _ rfl
    exact ⟨fun e => resolve_error_of_first_read rfl, fun a ha => resolve_operand_read (load_bind_of_ok ha _)⟩

/-- Settles O15: past the displacement, mode 6 is one operand read and mode 7 a pointer read and an operand read. -/
theorem indexedModes : Obligations.IndexedModes := by
  simp only [Obligations.IndexedModes, ← memoryTag_eq, ← indexBase_eq]
  refine fun sz r p asDest w =>
    ⟨fun e he => ⟨resolve_error_of_first_read rfl he, resolve_error_of_first_read rfl he⟩, ?_⟩
  rintro d _ hd rfl
  have hdeferred : resolveMode sz ⟨.indexedDeferred, r⟩ p w =
      w.load (indexBase r p w + d) .word >>= fun a => w.load a sz >>= fun v =>
        .ok (⟨v, memoryTag sz a, 1, some a⟩, w) := load_bind_of_ok hd _
  exact ⟨resolve_operand_read (load_bind_of_ok hd _), fun e => resolve_error_of_first_read hdeferred,
    fun a ha => resolve_operand_read (hdeferred.trans (load_bind_of_ok ha _))⟩

end Sys2Proof.Machine

/-! ### Two-operand instructions

An instruction of this family is `exec2` of its operation. What its operands' resolves do is said of `Resolved2`, what its
operation computes by one equation for each operation; the faults, the next state and the frame are those of `exec2`. -/

namespace Sys2Proof.Machine

/-! #### Two operands that resolve -/

section

variable {sz : Size} {src dst : Operand} {s : State} {S D : Desc} {w : Work}

theorem Resolved2.flags (h : Resolved2 sz src dst s S D w) : w.flags = s.flags := by
  obtain ⟨w₁, hS, hD⟩ := h
  exact (resolve_flags_mem hD).1.trans (resolve_flags_mem hS).1

theorem Resolved2.mem (h : Resolved2 sz src dst s S D w) : w.mem = s.mem := by
  obtain ⟨w₁, hS, hD⟩ := h
  exact (resolve_flags_mem hD).2.trans (resolve_flags_mem hS).2

/-- Two operands resolve in one way. -/
theorem Resolved2.dest_unique {S' D' : Desc} {w' : Work} (h : Resolved2 sz src dst s S D w)
    (h' : Resolved2 sz src dst s S' D' w') : D = D' := by
  obtain ⟨w₁, hS, hD⟩ := h
  obtain ⟨w₁', hS', hD'⟩ := h'
  cases hS.symm.trans hS'
  cases hD.symm.trans hD'
  rfl

end

/-! #### Faults and next states -/

theorem finishAlu_of_result_none {out : Alu} (h : out.result = none) (sz : Size) (wb : WriteBack) (w : Work) :
    finishAlu sz wb out w = .ok { w with flags := out.flags } :=
  finishAlu_ok_iff.2 (.inl ⟨h, rfl⟩)

section

variable {sz : Size} {op : Config → Flags → Word → Word → Alu} {src dst : Operand} {s : State} {S D : Desc} {w : Work}

/-- The faults of a two-operand instruction, in the order of `exec2` (41_two_operand.md R120). -/
theorem twoOperandFaults {i : Instr} {writes : Bool} (heq : exec i = exec2 sz op src dst)
    (hop : writes = true → ∀ cfg f a b, (op cfg f a b).result ≠ none) : TwoOperandFaults i sz writes src dst s := by
  unfold TwoOperandFaults
  rw [heq]
  refine ⟨fun t hS => ?_, fun S w₁ t hS hD => ?_, ?_⟩
  · simp [exec2, runInstr, hS, bind, Except.bind]
  · have hD : resolve sz dst (destPc s.pc S.extra) true w₁ = .error t := hD
    simp [exec2, runInstr, hS, hD, bind, Except.bind]
  · rintro hwrites S D w ⟨w₁, hS, hD⟩ hdst
    have hD : resolve sz dst (destPc s.pc S.extra) true w₁ = .ok (D, w) := hD
    have hF : finishAlu sz D.wb (op s.config w.flags S.value D.value) w =
        .error (.invalidDestination dst.mode dst.reg) := by
      obtain ⟨r, hr⟩ := Option.ne_none_iff_exists'.1 (hop hwrites s.config w.flags S.value D.value)
      simp [finishAlu, hr, commit_of_not_writable hD hdst]
    simp [exec2, runInstr, hS, hD, hF, bind, Except.bind]

/-- An operation with a result commits it and then writes the flags. -/
theorem exec2_of_result {r : Word} {fl : Flags} (h : Resolved2 sz src dst s S D w) (hdst : Writable dst)
    (hop : op s.config s.flags S.value D.value = ⟨some r, fl⟩) :
    ∃ w', commit sz D.wb r w = .ok w' ∧
      exec2 sz op src dst s = .next (complete s (S.extra + D.extra) { w' with flags := fl }) := by
  rw [← h.flags] at hop
  obtain ⟨w₁, hS, hD⟩ := h
  obtain ⟨w', hc, -⟩ := commit_of_writable (sz' := sz) (v := r) hD hdst
  refine ⟨w', hc, exec2_ok hS hD ?_⟩
  rw [hop]
  exact finishAlu_ok_iff.2 (.inr ⟨r, w', rfl, hc, rfl⟩)

/-- An operation without a result writes the flags only, whatever the destination. -/
theorem exec2_of_no_result {fl : Flags} (h : Resolved2 sz src dst s S D w)
    (hop : op s.config s.flags S.value D.value = ⟨none, fl⟩) :
    exec2 sz op src dst s = .next (complete s (S.extra + D.extra) { w with flags := fl }) := by
  rw [← h.flags] at hop
  obtain ⟨w₁, hS, hD⟩ := h
  refine exec2_ok hS hD ?_
  rw [hop]
  exact finishAlu_of_result_none rfl ..

end

/-! #### The operations -/

/-- Under UNSTATED_V = Unchanged a flag the source leaves blank keeps its value (92_eei_decisions.md D5). -/
theorem unstatedV_unchanged {cfg : Config} (h : cfg.unstatedV = .unchanged) (old computed : Bool) :
    unstatedV cfg old computed = old :=
  (unstatedV_eq ..).trans (if_pos h)

theorem isNegative_eq (sz : Size) (r : Word) : isNegative sz r = signAt sz r := by
  cases sz
  · exact isNegative_word r
  · exact isNegative_byte r

theorem and_sizeMask (sz : Size) (r : Word) : r &&& sizeMask sz = if sz = .word then r else r &&& 0xFF := by
  cases sz
  · exact and_sizeMask_word r
  · rfl

theorem setNZ_word (f : Flags) (r : Word) :
    f.setNZ .word r = { f with n := r.getLsbD 15, z := decide (r = 0) } := by
  rw [Flags.setNZ, isNegative_word, isZero_word]

/-- Z of a result taken to its size says that it is 0. -/
theorem setNZ_masked (f : Flags) (sz : Size) {r v : Word} (hr : r = v &&& sizeMask sz) :
    f.setNZ sz r = { f with n := signAt sz r, z := decide (r = 0) } := by
  have hz : isZero sz r = decide (r = 0) := by
    subst hr
    cases sz
    · exact isZero_word _
    · exact isZero_byte_masked v
  rw [Flags.setNZ, isNegative_eq, hz]

theorem aluMov_eq (cfg : Config) (f : Flags) (a b : Word) :
    aluMov cfg f a b =
      ⟨some a, { n := a.getLsbD 15, z := decide (a = 0), v := false, c := f.c, t := f.t }⟩ := by
  rw [aluMov, setNZ_word]

theorem aluMovb_eq (cfg : Config) (f : Flags) (a b : Word) :
    aluMovb cfg f a b =
      ⟨some (a &&& 0xFF),
        { n := a.getLsbD 7, z := decide (a &&& 0xFF = 0), v := false, c := a.getLsbD 7, t := f.t }⟩ := by
  have hn : signAt .byte (a &&& 0xFF) = a.getLsbD 7 := by simp [signAt]
  rw [aluMovb, setNZ_masked f .byte (r := a &&& 0xFF) rfl, isNegative_byte, hn]

theorem aluAdd_eq (cfg : Config) (f : Flags) (a b : Word) :
    aluAdd cfg f a b =
      ⟨some (b + a), {
        n := (b + a).getLsbD 15
        z := decide (b + a = 0)
        v := (a.getLsbD 15 == b.getLsbD 15) && ((b + a).getLsbD 15 != b.getLsbD 15)
        c := decide (0xFFFF < b.toNat + a.toNat)
        t := f.t }⟩ := by
  simp only [aluAdd, setNZ_word, addOverflow, isNegative_word]

theorem aluSub_eq (cfg : Config) (f : Flags) (a b : Word) :
    aluSub cfg f a b =
      ⟨some (b - a), {
        n := (b - a).getLsbD 15
        z := decide (b - a = 0)
        v := (a.getLsbD 15 != b.getLsbD 15) && ((b - a).getLsbD 15 != b.getLsbD 15)
        c := decide (b.toNat < a.toNat)
        t := f.t }⟩ := by
  simp only [aluSub, setNZ_word, subOverflow, difference, and_sizeMask_word, isNegative_word, BitVec.lt_def]

theorem aluCmp_eq (sz : Size) (cfg : Config) (f : Flags) {a b t : Word} (ht : t = (b - a) &&& sizeMask sz) :
    aluCmp sz cfg f a b =
      ⟨none, {
        n := signAt sz t
        z := decide (t = 0)
        v := if cfg.unstatedV = .unchanged then f.v
          else (signAt sz a != signAt sz b) && (signAt sz t != signAt sz b)
        c := decide (b.toNat < a.toNat)
        t := f.t }⟩ := by
  have hd : difference sz a b = t := ht.symm
  simp only [aluCmp, hd, setNZ_masked f sz ht, subOverflow, isNegative_eq, unstatedV_eq, BitVec.lt_def]

theorem aluBit_eq (sz : Size) (cfg : Config) (f : Flags) {a b t : Word} (ht : t = (b &&& a) &&& sizeMask sz) :
    aluBit sz cfg f a b =
      ⟨none, { n := signAt sz t, z := decide (t = 0), v := false, c := f.c, t := f.t }⟩ := by
  simp only [aluBit, ← ht, setNZ_masked f sz ht]

/-- The flags after BIC and BIS (41_two_operand.md R129 to R132). -/
def maskFlags (sz : Size) (cfg : Config) (f : Flags) (r : Word) : Flags where
  n := signAt sz r
  z := decide (r = 0)
  v := if cfg.unstatedV = .unchanged then f.v else false
  c := f.c
  t := f.t

theorem aluBic_eq (sz : Size) (cfg : Config) (f : Flags) {a b r : Word} (hr : r = (b &&& ~~~a) &&& sizeMask sz) :
    aluBic sz cfg f a b = ⟨some r, maskFlags sz cfg f r⟩ := by
  simp only [aluBic, ← hr, setNZ_masked f sz hr, unstatedV_eq, maskFlags]

theorem aluBis_eq (sz : Size) (cfg : Config) (f : Flags) {a b r : Word} (hr : r = (b ||| a) &&& sizeMask sz) :
    aluBis sz cfg f a b = ⟨some r, maskFlags sz cfg f r⟩ := by
  simp only [aluBis, ← hr, setNZ_masked f sz hr, unstatedV_eq, maskFlags]

/-! #### The statements -/

/-- Settles O19: `exec2` of an operation whose result is the source. -/
theorem movCopiesTheWord : Obligations.MovCopiesTheWord := fun _ src dst =>
  ⟨Laws.OpcodeRow.mov src dst rfl, twoOperandFaults (op := aluMov) rfl fun _ _ _ _ _ => nofun,
    fun _ _ _ h hdst => exec2_of_result h hdst (aluMov_eq ..)⟩

/-- Settles O20: `exec2` of an operation whose result is the source's byte. -/
theorem movbCopiesTheByte : Obligations.MovbCopiesTheByte := fun _ src dst =>
  ⟨Laws.OpcodeRow.movb src dst rfl, twoOperandFaults (op := aluMovb) rfl fun _ _ _ _ _ => nofun,
    fun _ _ _ h hdst => exec2_of_result h hdst (aluMovb_eq ..)⟩

/-- Settles O21: `exec2` of an operation whose result is the sum. -/
theorem addAddsTheWords : Obligations.AddAddsTheWords := fun _ src dst =>
  ⟨Laws.OpcodeRow.add src dst rfl, twoOperandFaults (op := aluAdd) rfl fun _ _ _ _ _ => nofun,
    fun _ _ _ h hdst => exec2_of_result h hdst (aluAdd_eq ..)⟩

/-- Settles O22: `exec2` of an operation whose result is the difference. -/
theorem subSubtractsTheWords : Obligations.SubSubtractsTheWords := fun _ _ _ =>
  ⟨twoOperandFaults (op := aluSub) rfl fun _ _ _ _ _ => nofun,
    fun _ _ _ h hdst => exec2_of_result h hdst (aluSub_eq ..)⟩

/-- Settles O23: both forms are `exec2` of one operation at their size, which has no result to commit. -/
theorem compareSetsFlagsOnly : Obligations.CompareSetsFlagsOnly := by
  simp only [Obligations.CompareSetsFlagsOnly, ← and_sizeMask]
  intro s src dst i sz hi
  have heq : exec i = exec2 sz (aluCmp sz) src dst := by
    rcases hi with ⟨rfl, rfl⟩ | ⟨rfl, rfl⟩ <;> rfl
  refine ⟨twoOperandFaults heq nofun, fun S D w t h ht => ?_⟩
  rw [heq]
  exact exec2_of_no_result h (aluCmp_eq sz _ _ ht)

/-- Settles O24: both forms are `exec2` of one operation at their size, which has no result to commit. -/
theorem bitTestSetsFlagsOnly : Obligations.BitTestSetsFlagsOnly := by
  simp only [Obligations.BitTestSetsFlagsOnly, ← and_sizeMask]
  intro s src dst i sz hi
  have heq : exec i = exec2 sz (aluBit sz) src dst := by
    rcases hi with ⟨rfl, rfl⟩ | ⟨rfl, rfl⟩ <;> rfl
  refine ⟨?_, twoOperandFaults heq nofun, fun S D w t h ht => ?_⟩
  · rcases hi with ⟨rfl, rfl⟩ | ⟨rfl, rfl⟩
    · exact Laws.OpcodeRow.bit src dst rfl
    · exact Laws.OpcodeRow.bitb src dst rfl
  · rw [heq]
    exact exec2_of_no_result h (aluBit_eq sz _ _ ht)

/-- Settles O25: each form is `exec2` of an operation whose result is its mask and whose flags are `maskFlags` of it. -/
theorem bitClearAndBitSet : Obligations.BitClearAndBitSet := by
  intro s src dst i sz f hi
  obtain ⟨op, heq, hop⟩ : ∃ op, exec i = exec2 sz op src dst ∧
      ∀ cfg fl a b, op cfg fl a b = ⟨some (f a b), maskFlags sz cfg fl (f a b)⟩ := by
    rcases hi with ⟨rfl, rfl, rfl⟩ | ⟨rfl, rfl, rfl⟩ | ⟨rfl, rfl, rfl⟩ | ⟨rfl, rfl, rfl⟩
    · exact ⟨_, rfl, fun cfg fl _ _ => aluBic_eq .word cfg fl (and_sizeMask_word _).symm⟩
    · exact ⟨_, rfl, fun cfg fl _ _ => aluBic_eq .byte cfg fl rfl⟩
    · exact ⟨_, rfl, fun cfg fl _ _ => aluBis_eq .word cfg fl (and_sizeMask_word _).symm⟩
    · exact ⟨_, rfl, fun cfg fl _ _ => aluBis_eq .byte cfg fl rfl⟩
  refine ⟨twoOperandFaults heq fun _ cfg fl a b => by simp [hop], ?_⟩
  rintro S D w _ h hdst rfl
  rw [heq]
  exact exec2_of_result h hdst (hop ..)

/-! #### True carries and overflows -/

/-- V after ADD is the library's signed overflow of the addition. -/
theorem aluAdd_v (cfg : Config) (f : Flags) (a b : Word) : (aluAdd cfg f a b).flags.v = b.saddOverflow a := by
  rw [aluAdd_eq, BitVec.saddOverflow_eq]
  simp only [BitVec.msb_eq_getLsbD_last]
  cases b.getLsbD 15 <;> cases a.getLsbD 15 <;> cases (b + a).getLsbD 15 <;> rfl

/-- V after SUB is the library's signed overflow of the subtraction. -/
theorem aluSub_v (cfg : Config) (f : Flags) (a b : Word) : (aluSub cfg f a b).flags.v = b.ssubOverflow a := by
  rw [aluSub_eq, BitVec.ssubOverflow_eq]
  simp only [BitVec.msb_eq_getLsbD_last]
  cases b.getLsbD 15 <;> cases a.getLsbD 15 <;> cases (b - a).getLsbD 15 <;> rfl

theorem saddOverflow_eq_decide (a b : Word) :
    a.saddOverflow b = decide (a.toInt + b.toInt < -2 ^ 15 ∨ 2 ^ 15 - 1 < a.toInt + b.toInt) := by
  rw [BitVec.saddOverflow, ← Bool.decide_or, decide_eq_decide]
  omega

theorem ssubOverflow_eq_decide (a b : Word) :
    a.ssubOverflow b = decide (a.toInt - b.toInt < -2 ^ 15 ∨ 2 ^ 15 - 1 < a.toInt - b.toInt) := by
  rw [BitVec.ssubOverflow, ← Bool.decide_or, decide_eq_decide]
  omega

/-- Settles O26: C is a comparison of the unsigned values, V the library's signed overflow. -/
theorem carriesAndOverflowsAreExact : Obligations.CarriesAndOverflowsAreExact := by
  intro cfg f src dst
  refine ⟨rfl, ?_, rfl, ?_, fun _ => rfl, ?_⟩
  · rw [aluAdd_v, saddOverflow_eq_decide]
  · rw [aluSub_v, ssubOverflow_eq_decide]
  · rintro _ ⟨⟩
    rw [aluSub_eq, BitVec.add_sub_cancel]

end Sys2Proof.Machine

/-! ### Frames

What an instruction leaves unchanged. Its operands' resolves change the registers they step (`resolve_get`), a commit the
destination (`CommitFrame`), and the end of the instruction x[7] (`complete_get`, `takeFault_get`). -/

namespace Sys2Proof.Machine

theorem complete_get {r : RegNum} (hr : r ≠ 7) (s : State) (extra : Nat) (w : Work) :
    (complete s extra w).regs.get r = w.regs.get r := by
  rw [complete_regs]
  split
  · rfl
  · exact Regs.get_put_ne _ _ hr

theorem takeFault_get {r : RegNum} (hr : r ≠ 7) (s : State) (f : Trap) :
    (takeFault s f).regs.get r = s.regs.get r :=
  Regs.get_put_ne _ _ hr

/-- An instruction ends with `complete` or `takeFault`, and neither writes a field beyond the CPU's. -/
theorem runInstr_sameOutsideCpu {body : Work → Except Trap (Nat × Work)} {s t : State}
    (h : runInstr body s = .next t) : SameOutsideCpu s t := by
  rcases runInstr_cases body s with ⟨extra, w, -, he⟩ | ⟨f, -, he⟩ <;> cases he.symm.trans h
  · exact ⟨rfl, rfl, rfl, rfl, rfl, rfl, rfl⟩
  · exact ⟨rfl, rfl, rfl, rfl, rfl, rfl, rfl⟩

theorem memWrite_sameOutside {m m' : Memory} {a v : Word} {sz : Size} (h : memWrite m a sz v = .ok m') {x : Nat}
    (hlow : x ≠ a.toNat) (hhigh : sz = .word → x ≠ a.toNat + 1) : m'.read x = m.read x := by
  obtain ⟨-, rfl⟩ := (memWrite_ok_iff ..).1 h
  cases sz
  case word => simp [Memory.read_writeWordAt, hlow, hhigh rfl]
  case byte => exact Memory.read_write_ne _ _ hlow

/-! #### Operands -/

theorem Steps.of_stepsRegister {o : Operand} (h : stepsRegister o = true) : Steps o := by
  simp only [stepsRegister, Bool.or_eq_true, Bool.and_eq_true, decide_eq_true_eq] at h
  unfold Steps
  tauto

/-- A resolve changes at most the register its mode steps (40_addressing_modes.md R96 to R101). -/
theorem resolve_get {sz : Size} {o : Operand} {p : Word} {asDest : Bool} {w w' : Work} {d : Desc} {r : RegNum}
    (h : resolve sz o p asDest w = .ok (d, w')) (hr : ¬(r = o.reg ∧ Steps o)) : w'.regs.get r = w.regs.get r := by
  obtain ⟨d', hm, -⟩ := resolve_ok_iff.1 h
  refine (resolveMode_facts hm).regs r fun hreg => ?_
  exact Bool.eq_false_iff.2 fun hsteps => hr ⟨hreg, .of_stepsRegister hsteps⟩

theorem Resolved2.get {sz : Size} {src dst : Operand} {s : State} {S D : Desc} {w : Work} {r : RegNum}
    (h : Resolved2 sz src dst s S D w) (hdst : ¬(r = dst.reg ∧ Steps dst)) (hsrc : ¬(r = src.reg ∧ Steps src)) :
    w.regs.get r = s.regs.get r := by
  obtain ⟨w₁, hS, hD⟩ := h
  exact (resolve_get hD hdst).trans (resolve_get hS hsrc)

/-- What a commit to the resolved destination `o` changes at most: the register of mode 0, or the operand's bytes. -/
structure CommitFrame (sz : Size) (o : Operand) (d : Desc) (w w' : Work) : Prop where
  regs : ∀ r, ¬(r = o.reg ∧ o.mode = .register) → w'.regs.get r = w.regs.get r
  mem : w'.mem = w.mem ∨
    o.mode ≠ .register ∧ Writable o ∧ ∃ a v, d.ea = some a ∧ memWrite w.mem a sz v = .ok w'.mem

theorem commit_frame {sz sz' : Size} {o : Operand} {p v : Word} {w w' w'' : Work} {d : Desc}
    (h : resolve sz o p true w = .ok (d, w')) (hc : commit sz' d.wb v w' = .ok w'') : CommitFrame sz o d w' w'' := by
  have hdst : Writable o := by
    by_contra hdst
    cases (commit_of_not_writable h hdst sz' v).symm.trans hc
  have facts := resolve_dest_facts h
  by_cases hm : o.mode = .register
  · obtain ⟨-, hwb, -⟩ := facts.direct hm
    rw [hwb] at hc
    cases hc
    exact ⟨fun r hr => Regs.get_put_ne _ _ fun hreg => hr ⟨hreg, hm⟩, .inl rfl⟩
  · obtain ⟨a, hea, -, hwb⟩ := facts.memory hm
    have hlit : isLiteral o = false := by simpa [hdst] using isLiteral_iff o
    rw [hwb, hlit] at hc
    obtain ⟨m, hw, rfl⟩ : ∃ m, memWrite w'.mem a sz v = .ok m ∧ w'' = { w' with mem := m } := by
      cases sz <;> exact (store_ok_iff ..).1 hc
    exact ⟨fun _ _ => rfl, .inr ⟨hm, hdst, a, v, hea, hw⟩⟩

theorem finishAlu_frame {sz : Size} {o : Operand} {p : Word} {w w' w'' : Work} {d : Desc} {out : Alu}
    (h : resolve sz o p true w = .ok (d, w')) (hF : finishAlu sz d.wb out w' = .ok w'') :
    CommitFrame sz o d w' w'' := by
  rcases finishAlu_ok_iff.1 hF with ⟨-, rfl⟩ | ⟨v, w₃, -, hc, rfl⟩
  · exact ⟨fun _ _ => rfl, .inl rfl⟩
  · exact ⟨(commit_frame h hc).regs, (commit_frame h hc).mem⟩

theorem finishAlu_flags {sz : Size} {wb : WriteBack} {out : Alu} {w w' : Work} (h : finishAlu sz wb out w = .ok w') :
    w'.flags = out.flags := by
  rcases finishAlu_ok_iff.1 h with ⟨-, rfl⟩ | ⟨r, w'', -, -, rfl⟩ <;> rfl

/-! #### Two-operand instructions -/

section

variable {sz : Size} {op : Config → Flags → Word → Word → Alu} {src dst : Operand} {s t : State}

/-- The two ends of a two-operand instruction. -/
theorem exec2_next_cases (h : exec2 sz op src dst s = .next t) :
    (∃ S D w w', Resolved2 sz src dst s S D w ∧
      finishAlu sz D.wb (op s.config s.flags S.value D.value) w = .ok w' ∧ CommitFrame sz dst D w w' ∧
      t = complete s (S.extra + D.extra) w') ∨ ∃ f, t = takeFault s f := by
  rcases exec2_cases sz op src dst s with ⟨S, D, w₁, w₂, w₃, hS, hD, hF, he⟩ | ⟨f, he⟩ <;> cases he.symm.trans h
  · have hres : Resolved2 sz src dst s S D w₂ := ⟨w₁, hS, hD⟩
    exact .inl ⟨S, D, w₂, w₃, hres, hres.flags ▸ hF, finishAlu_frame hD hF, rfl⟩
  · exact .inr ⟨f, rfl⟩

/-- A flag that the operation keeps is kept: a fault keeps every flag. -/
theorem exec2_keeps_flag (h : exec2 sz op src dst s = .next t) (flag : Flags → Bool)
    (hop : ∀ a b, flag (op s.config s.flags a b).flags = flag s.flags) : flag t.flags = flag s.flags := by
  rcases exec2_next_cases h with ⟨S, D, w, w', -, hF, -, rfl⟩ | ⟨f, rfl⟩
  · rw [complete_flags, finishAlu_flags hF, hop]
  · rfl

theorem exec2_get {r : RegNum} (h : exec2 sz op src dst s = .next t) (hr : r ≠ 7)
    (hdst : ¬(r = dst.reg ∧ (dst.mode = .register ∨ Steps dst))) (hsrc : ¬(r = src.reg ∧ Steps src)) :
    t.regs.get r = s.regs.get r := by
  rcases exec2_next_cases h with ⟨S, D, w, w', hres, -, hframe, rfl⟩ | ⟨f, rfl⟩
  · rw [complete_get hr, hframe.regs r (by tauto), hres.get (by tauto) hsrc]
  · exact takeFault_get hr s f

/-- A two-operand instruction writes memory at the effective address of its destination, or not at all. -/
theorem exec2_mem_cases (h : exec2 sz op src dst s = .next t) :
    t.mem = s.mem ∨ dst.mode ≠ .register ∧ Writable dst ∧ ∃ S D w a v,
      Resolved2 sz src dst s S D w ∧ D.ea = some a ∧ memWrite s.mem a sz v = .ok t.mem := by
  rcases exec2_next_cases h with ⟨S, D, w, w', hres, -, hframe, rfl⟩ | ⟨f, rfl⟩
  · rw [complete_mem, ← hres.mem]
    refine hframe.mem.imp_right ?_
    rintro ⟨hm, hdst, a, v, hea, hw⟩
    exact ⟨hm, hdst, S, D, w, a, v, hres, hea, hw⟩
  · exact .inl rfl

/-- An operation without a result commits nothing: only the operands' steps and the end of the instruction remain. -/
theorem exec2_frame_of_result_none (h : exec2 sz op src dst s = .next t)
    (hop : ∀ a b, (op s.config s.flags a b).result = none) :
    (∀ r, r ≠ 7 → ¬(r = dst.reg ∧ Steps dst) → ¬(r = src.reg ∧ Steps src) → t.regs.get r = s.regs.get r) ∧
      SameMemory s t := by
  rcases exec2_next_cases h with ⟨S, D, w, w', hres, hF, -, rfl⟩ | ⟨f, rfl⟩
  · cases (finishAlu_of_result_none (hop S.value D.value) ..).symm.trans hF
    exact ⟨fun r hr hdst hsrc => (complete_get hr ..).trans (hres.get hdst hsrc),
      fun x => congrArg (Memory.read · x) hres.mem⟩
  · exact ⟨fun r hr _ _ => takeFault_get hr s f, fun _ => rfl⟩

end

/-- Settles O42: each instruction is `exec2` of an operation, and its one commit is to the destination. -/
theorem twoOperandWritersFrame : Obligations.TwoOperandWritersFrame := by
  intro s t src dst i sz hi h
  obtain ⟨op, heq, hT⟩ : ∃ op, exec i = exec2 sz op src dst ∧ ∀ cfg f a b, (op cfg f a b).flags.t = f.t := by
    rcases hi with ⟨rfl, rfl | rfl | rfl | rfl | rfl⟩ | ⟨rfl, rfl | rfl | rfl⟩ <;>
      exact ⟨_, rfl, fun _ _ _ _ => rfl⟩
  have h₂ : exec2 sz op src dst s = .next t := heq ▸ h
  refine ⟨runInstr_sameOutsideCpu h₂, fun r hr hdst hsrc => exec2_get h₂ hr hdst hsrc,
    exec2_keeps_flag h₂ Flags.t (hT _ _), ?_, ?_, ?_⟩
  · rintro (rfl | rfl | rfl | rfl | rfl) <;> exact exec2_keeps_flag h Flags.c fun _ _ => rfl
  · rintro (rfl | rfl | rfl | rfl) hV <;>
      exact exec2_keeps_flag h Flags.v fun _ _ => unstatedV_unchanged hV ..
  rcases exec2_mem_cases h₂ with hmem | ⟨hm, hdst, S, D, w, a, v, hres, hea, hw⟩
  · have hsame : SameMemory s t := fun x => by rw [hmem]
    exact ⟨fun _ => hsame, fun _ => hsame, fun _ _ _ _ _ _ x _ _ => hsame x⟩
  · refine ⟨fun hno => ?_, fun hno => absurd ⟨S, D, w, hres⟩ hno, fun S' D' w' a' hres' hea' => ?_⟩
    · exact absurd hno (by tauto)
    · cases hres.dest_unique hres'
      cases hea.symm.trans hea'
      exact fun x hlow hhigh => memWrite_sameOutside hw hlow hhigh

/-! #### One-operand instructions and the readers -/

section

variable {sz : Size} {asDest : Bool} {op : Config → Flags → Word → Alu} {o : Operand} {s t : State}

/-- The two ends of a one-operand instruction. -/
theorem exec1_next_cases (h : exec1 sz asDest op o s = .next t) :
    (∃ O w w', Resolved1 sz asDest o s O w ∧ finishAlu sz O.wb (op s.config s.flags O.value) w = .ok w' ∧
      t = complete s O.extra w') ∨ ∃ f, t = takeFault s f := by
  rcases exec1_cases sz asDest op o s with ⟨O, w₁, w₂, hO, hF, he⟩ | ⟨f, he⟩ <;> cases he.symm.trans h
  · have hflags : w₁.flags = s.flags := (resolve_flags_mem hO).1
    exact .inl ⟨O, w₁, w₂, hO, hflags ▸ hF, rfl⟩
  · exact .inr ⟨f, rfl⟩

theorem exec1_keeps_flag (h : exec1 sz asDest op o s = .next t) (flag : Flags → Bool)
    (hop : ∀ v, flag (op s.config s.flags v).flags = flag s.flags) : flag t.flags = flag s.flags := by
  rcases exec1_next_cases h with ⟨O, w, w', -, hF, rfl⟩ | ⟨f, rfl⟩
  · rw [complete_flags, finishAlu_flags hF, hop]
  · rfl

theorem exec1_frame_of_result_none (h : exec1 sz asDest op o s = .next t)
    (hop : ∀ v, (op s.config s.flags v).result = none) :
    (∀ r, r ≠ 7 → ¬(r = o.reg ∧ Steps o) → t.regs.get r = s.regs.get r) ∧ SameMemory s t := by
  rcases exec1_next_cases h with ⟨O, w, w', hO, hF, rfl⟩ | ⟨f, rfl⟩
  · cases (finishAlu_of_result_none (hop O.value) ..).symm.trans hF
    exact ⟨fun r hr ho => (complete_get hr ..).trans (resolve_get hO ho),
      fun x => congrArg (Memory.read · x) (resolve_flags_mem hO).2⟩
  · exact ⟨fun r hr _ => takeFault_get hr s f, fun _ => rfl⟩

end

/-- Settles O44: none of the operations has a result, so nothing is committed. -/
theorem readersFrame : Obligations.ReadersFrame := by
  constructor
  · intro s t src dst i hi h
    obtain ⟨sz, op, heq, hnone, hT⟩ : ∃ sz op, exec i = exec2 sz op src dst ∧
        (∀ cfg f a b, (op cfg f a b).result = none) ∧ ∀ cfg f a b, (op cfg f a b).flags.t = f.t := by
      rcases hi with rfl | rfl | rfl | rfl <;> exact ⟨_, _, rfl, fun _ _ _ _ => rfl, fun _ _ _ _ => rfl⟩
    have h₂ : exec2 sz op src dst s = .next t := heq ▸ h
    obtain ⟨hregs, hmem⟩ := exec2_frame_of_result_none h₂ (hnone _ _)
    refine ⟨runInstr_sameOutsideCpu h₂, hregs, exec2_keeps_flag h₂ Flags.t (hT _ _), ?_, ?_, hmem⟩
    · rintro (rfl | rfl) <;> exact exec2_keeps_flag h Flags.c fun _ _ => rfl
    · rintro (rfl | rfl) hV <;> exact exec2_keeps_flag h Flags.v fun _ _ => unstatedV_unchanged hV ..
  · intro s t src i hi h
    obtain ⟨sz, asDest, op, heq, hnone⟩ : ∃ sz asDest op, exec i = exec1 sz asDest op src ∧
        ∀ cfg f v, (op cfg f v).result = none := by
      rcases hi with rfl | rfl | rfl <;> exact ⟨_, _, _, rfl, fun _ _ _ => rfl⟩
    have h₁ : exec1 sz asDest op src s = .next t := heq ▸ h
    obtain ⟨hregs, hmem⟩ := exec1_frame_of_result_none h₁ (hnone _ _)
    refine ⟨runInstr_sameOutsideCpu h₁, hregs, ?_, hmem⟩
    rintro (rfl | rfl) <;> exact exec1_keeps_flag h Flags.t fun _ => rfl

end Sys2Proof.Machine

/-! ### One-operand instructions

MFPS aside, an instruction of this family is `exec1` of its operation, and every one of them first resolves its operand.
What that resolve does is said of `Resolved1`, what each operation computes by one equation. -/

namespace Sys2Proof.Machine

/-! #### One operand that resolves -/

section

variable {sz : Size} {asDest : Bool} {o : Operand} {s : State} {O : Desc} {w : Work}

theorem Resolved1.flags (h : Resolved1 sz asDest o s O w) : w.flags = s.flags := (resolve_flags_mem h).1

theorem Resolved1.mem (h : Resolved1 sz asDest o s O w) : w.mem = s.mem := (resolve_flags_mem h).2

theorem Resolved1.unique {O' : Desc} {w' : Work} (h : Resolved1 sz asDest o s O w)
    (h' : Resolved1 sz asDest o s O' w') : O = O' := by
  cases h.symm.trans h'
  rfl

end

theorem sized_masked (sz : Size) (v : Word) : sized sz v = sized sz v &&& sizeMask sz := by
  cases sz
  · exact (and_sizeMask_word v).symm
  · exact (and_byte_mask_idem v).symm

/-- A byte read comes back with a zero high byte (20_memory.md R46). -/
theorem memRead_masked {m : Memory} {a v : Word} {sz : Size} (h : memRead m a sz = .ok v) : v = v &&& sizeMask sz := by
  obtain ⟨-, rfl⟩ := (memRead_ok_iff ..).1 h
  cases sz
  · exact (and_sizeMask_word _).symm
  · have hlow : lowByte ((m.read a.toNat).setWidth 16) = m.read a.toNat := by simp [lowByte]
    exact (congrArg _ hlow.symm).trans (setWidth_lowByte _)

/-- The value of a byte operand is at most 0xFF (40_addressing_modes.md R90). -/
theorem Resolved1.value_masked {sz : Size} {asDest : Bool} {o : Operand} {s : State} {O : Desc} {w : Work}
    (h : Resolved1 sz asDest o s O w) : O.value = O.value &&& sizeMask sz := by
  obtain ⟨d, hm, rfl⟩ := resolve_ok_iff.1 h
  have hvalue : d.value = d.value &&& sizeMask sz := by
    have facts := resolveMode_facts hm
    by_cases hreg : o.mode = .register
    · obtain ⟨-, -, hd, -⟩ := facts.direct hreg
      exact hd ▸ sized_masked sz _
    · obtain ⟨a, -, hread, -⟩ := facts.memory hreg
      exact memRead_masked hread
  cases asDest <;> exact hvalue

/-! #### Faults and next states -/

section

variable {sz : Size} {asDest : Bool} {op : Config → Flags → Word → Alu} {o : Operand} {s : State} {O : Desc} {w : Work}

/-- The faults of a one-operand instruction, in the order of `exec1` (42_one_operand.md R150). -/
theorem oneOperandFaults {i : Instr} {writes : Bool} (heq : exec i = exec1 sz asDest op o)
    (hop : writes = true → asDest = true ∧ ∀ cfg f v, (op cfg f v).result ≠ none) :
    OneOperandFaults i sz asDest writes o s := by
  unfold OneOperandFaults
  rw [heq]
  refine ⟨fun t hO => by simp [exec1, runInstr, hO, bind, Except.bind], fun hwrites O w hO hdst => ?_⟩
  obtain ⟨rfl, hresult⟩ := hop hwrites
  have hO : resolve sz o s.pc true (Work.ofState s) = .ok (O, w) := hO
  have hF : finishAlu sz O.wb (op s.config w.flags O.value) w = .error (.invalidDestination o.mode o.reg) := by
    obtain ⟨r, hr⟩ := Option.ne_none_iff_exists'.1 (hresult s.config w.flags O.value)
    simp [finishAlu, hr, commit_of_not_writable hO hdst]
  simp [exec1, runInstr, hO, hF, bind, Except.bind]

/-- An operation with a result commits it and then writes the flags. -/
theorem exec1_of_result {r : Word} {fl : Flags} (h : Resolved1 sz true o s O w) (hdst : Writable o)
    (hop : op s.config s.flags O.value = ⟨some r, fl⟩) :
    ∃ w', commit sz O.wb r w = .ok w' ∧
      exec1 sz true op o s = .next (complete s O.extra { w' with flags := fl }) := by
  rw [← h.flags] at hop
  obtain ⟨w', hc, -⟩ := commit_of_writable (sz' := sz) (v := r) h hdst
  refine ⟨w', hc, exec1_ok h ?_⟩
  rw [hop]
  exact finishAlu_ok_iff.2 (.inr ⟨r, w', rfl, hc, rfl⟩)

/-- An operation without a result writes the flags only, whatever the operand. -/
theorem exec1_of_no_result {fl : Flags} (h : Resolved1 sz asDest o s O w)
    (hop : op s.config s.flags O.value = ⟨none, fl⟩) :
    exec1 sz asDest op o s = .next (complete s O.extra { w with flags := fl }) := by
  rw [← h.flags] at hop
  refine exec1_ok h ?_
  rw [hop]
  exact finishAlu_of_result_none rfl ..

end

/-! #### The operations -/

theorem aluCom_eq (sz : Size) (cfg : Config) (f : Flags) {v r : Word} (hr : r = ~~~v &&& sizeMask sz) :
    aluCom sz cfg f v =
      ⟨some r, {
        n := signAt sz r
        z := decide (r = 0)
        v := if cfg.unstatedV = .unchanged then f.v else false
        c := true
        t := f.t }⟩ := by
  simp only [aluCom, ← hr, setNZ_masked f sz hr, unstatedV_eq]

/-- The flags after INC and DEC: C on the wrapped result `wrap`, V on the old value `edge` (42_one_operand.md R155 to
R158). -/
def countFlags (sz : Size) (f : Flags) (wrap edge v r : Word) : Flags where
  n := signAt sz r
  z := decide (r = 0)
  v := decide (v = edge)
  c := decide (r = wrap)
  t := f.t

theorem aluInc_eq (sz : Size) (cfg : Config) (f : Flags) {v r : Word} (hr : r = (v + 1) &&& sizeMask sz) :
    aluInc sz cfg f v = ⟨some r, countFlags sz f 0 (signBit sz - 1) v r⟩ := by
  simp only [aluInc, ← hr, setNZ_masked f sz hr, countFlags]

theorem aluDec_eq (sz : Size) (cfg : Config) (f : Flags) {v r : Word} (hr : r = (v - 1) &&& sizeMask sz) :
    aluDec sz cfg f v = ⟨some r, countFlags sz f (sizeMask sz) (signBit sz) v r⟩ := by
  simp only [aluDec, ← hr, setNZ_masked f sz hr, countFlags]

theorem aluNeg_eq (sz : Size) (cfg : Config) (f : Flags) {v r : Word} (hr : r = -v &&& sizeMask sz) :
    aluNeg sz cfg f v =
      ⟨some r, {
        n := signAt sz r
        z := decide (r = 0)
        v := decide (v = signBit sz)
        c := decide (v ≠ 0)
        t := f.t }⟩ := by
  have hsub : (0 - v) &&& sizeMask sz = r := by rw [hr, zero_sub]
  simp only [aluNeg, hsub, setNZ_masked f sz hr]

theorem aluTst_eq (sz : Size) (cfg : Config) (f : Flags) {v : Word} (hv : v = v &&& sizeMask sz) :
    aluTst sz cfg f v = ⟨none, { n := signAt sz v, z := decide (v = 0), v := false, c := false, t := f.t }⟩ := by
  simp only [aluTst, setNZ_masked f sz hv]

/-- The flags after a shift with result `r` that moved `out` into C (42_one_operand.md R163 to R166). -/
def shiftFlags (sz : Size) (cfg : Config) (f : Flags) (out : Bool) (r : Word) : Flags where
  n := signAt sz r
  z := decide (r = 0)
  v := if cfg.unstatedV = .unchanged then f.v else signAt sz r != out
  c := out
  t := f.t

/-- A right shift of a byte is a byte. -/
theorem asr_masked (sz : Size) {v : Word} (hv : v = v &&& sizeMask sz) :
    (v >>> 1) ||| (v &&& signBit sz) = ((v >>> 1) ||| (v &&& signBit sz)) &&& sizeMask sz := by
  cases sz
  case word => exact (and_sizeMask_word _).symm
  case byte =>
    rw [hv]
    simp only [sizeMask, signBit]
    refine BitVec.eq_of_getLsbD_eq fun i hi => ?_
    interval_cases i <;> simp

theorem aluAsr_eq (sz : Size) (cfg : Config) (f : Flags) {v : Word} (hv : v = v &&& sizeMask sz) :
    aluAsr sz cfg f v =
      ⟨some ((v >>> 1) ||| (v &&& signBit sz)),
        shiftFlags sz cfg f (v.getLsbD 0) ((v >>> 1) ||| (v &&& signBit sz))⟩ := by
  simp only [aluAsr, setNZ_masked f sz (asr_masked sz hv), unstatedV_eq, isNegative_eq, shiftFlags]

theorem aluAsl_eq (sz : Size) (cfg : Config) (f : Flags) {v r : Word} (hr : r = (v <<< 1) &&& sizeMask sz) :
    aluAsl sz cfg f v = ⟨some r, shiftFlags sz cfg f (signAt sz v) r⟩ := by
  simp only [aluAsl, ← hr, setNZ_masked f sz hr, unstatedV_eq, isNegative_eq, shiftFlags]

theorem aluMtps_eq (cfg : Config) (f : Flags) (v : Word) :
    aluMtps cfg f v =
      ⟨none, { n := v.getLsbD 3, z := v.getLsbD 2, v := v.getLsbD 1, c := v.getLsbD 0, t := v.getLsbD 4 }⟩ := by
  simp [aluMtps, Flags.unpack, lowByte]

/-! #### MFPS -/

/-- MFPS commits a whole word exactly to a register under ZeroExtend (92_eei_decisions.md D6). -/
theorem mfpsSize_of_resolve {cfg : Config} {sz : Size} {o : Operand} {p : Word} {w w' : Work} {d : Desc}
    (h : resolve sz o p true w = .ok (d, w')) :
    mfpsSize cfg d.wb = if cfg.mfpsRegPolicy = .zeroExtend ∧ o.mode = .register then .word else .byte := by
  have facts := resolve_dest_facts h
  by_cases hreg : o.mode = .register
  · obtain ⟨-, hwb, -⟩ := facts.direct hreg
    rw [hwb]
    cases hpolicy : cfg.mfpsRegPolicy <;> simp [mfpsSize, hpolicy, hreg]
  · obtain ⟨a, -, -, hwb⟩ := facts.memory hreg
    have hbyte : mfpsSize cfg d.wb = .byte := by
      rw [hwb]
      unfold mfpsSize
      cases isLiteral o <;> cases sz <;> cases cfg.mfpsRegPolicy <;> rfl
    rw [hbyte, if_neg fun hword => hreg hword.2]

theorem oneOperandFaults_mfps (dst : Operand) (s : State) : OneOperandFaults (.mfps dst) .byte true true dst s := by
  refine ⟨fun t hO => by simp [exec, execMfps, runInstr, hO, bind, Except.bind], fun _ O w hO hdst => ?_⟩
  have hO : resolve .byte dst s.pc true (Work.ofState s) = .ok (O, w) := hO
  simp [exec, execMfps, runInstr, hO, commit_of_not_writable hO hdst, bind, Except.bind]

theorem execMfps_ok {dst : Operand} {s : State} {O : Desc} {w w' : Work} (h : Resolved1 .byte true dst s O w)
    (hc : commit (mfpsSize s.config O.wb) O.wb (s.flags.pack.setWidth 16) w = .ok w') :
    execMfps dst s = .next (complete s O.extra w') := by
  rw [← h.flags] at hc
  have hO : resolve .byte dst s.pc true (Work.ofState s) = .ok (O, w) := h
  simp [execMfps, runInstr, hO, hc, bind, Except.bind]

/-! #### The statements -/

/-- Settles O27: both forms are `exec1` of one operation, whose result is 0. -/
theorem clearWritesZero : Obligations.ClearWritesZero := by
  intro s dst i sz hi
  have heq : exec i = exec1 sz true aluClr dst := by
    rcases hi with ⟨rfl, rfl⟩ | ⟨rfl, rfl⟩ <;> rfl
  refine ⟨?_, oneOperandFaults heq fun _ => ⟨rfl, fun _ _ _ => nofun⟩, fun O w h hdst => ?_⟩
  · rcases hi with ⟨rfl, rfl⟩ | ⟨rfl, rfl⟩
    · exact Laws.OpcodeRow.clr dst rfl
    · exact Laws.OpcodeRow.clrb dst rfl
  · rw [heq]
    exact exec1_of_result h hdst rfl

/-- Settles O28: both forms are `exec1` of one operation at their size, whose result is the complement. -/
theorem complementForcesCarry : Obligations.ComplementForcesCarry := by
  simp only [Obligations.ComplementForcesCarry, ← and_sizeMask]
  intro s dst i sz hi
  have heq : exec i = exec1 sz true (aluCom sz) dst := by
    rcases hi with ⟨rfl, rfl⟩ | ⟨rfl, rfl⟩ <;> rfl
  refine ⟨oneOperandFaults heq fun _ => ⟨rfl, fun _ _ _ => nofun⟩, fun O w r h hdst hr => ?_⟩
  rw [heq]
  exact exec1_of_result h hdst (aluCom_eq sz _ _ hr)

/-- Settles O29: each form is `exec1` of an operation whose flags are `countFlags` of its result. -/
theorem incrementAndDecrement : Obligations.IncrementAndDecrement := by
  intro s dst i sz f wrap edge hi
  obtain ⟨op, heq, hop⟩ : ∃ op, exec i = exec1 sz true op dst ∧
      ∀ cfg fl v, op cfg fl v = ⟨some (f v), countFlags sz fl wrap edge v (f v)⟩ := by
    rcases hi with ⟨rfl, rfl, rfl, rfl, rfl⟩ | ⟨rfl, rfl, rfl, rfl, rfl⟩ | ⟨rfl, rfl, rfl, rfl, rfl⟩ |
      ⟨rfl, rfl, rfl, rfl, rfl⟩
    · exact ⟨_, rfl, fun cfg fl _ => aluInc_eq .word cfg fl (and_sizeMask_word _).symm⟩
    · exact ⟨_, rfl, fun cfg fl _ => aluInc_eq .byte cfg fl rfl⟩
    · exact ⟨_, rfl, fun cfg fl _ => aluDec_eq .word cfg fl (and_sizeMask_word _).symm⟩
    · exact ⟨_, rfl, fun cfg fl _ => aluDec_eq .byte cfg fl rfl⟩
  refine ⟨oneOperandFaults heq fun _ => ⟨rfl, fun cfg fl v => by simp [hop]⟩, ?_⟩
  rintro O w _ h hdst rfl
  rw [heq]
  exact exec1_of_result h hdst (hop ..)

/-- Settles O30: both forms are `exec1` of one operation at their size, whose result is the negated operand. -/
theorem negateSetsCarryUnlessZero : Obligations.NegateSetsCarryUnlessZero := by
  simp only [Obligations.NegateSetsCarryUnlessZero, ← and_sizeMask]
  intro s dst i sz edge hi
  obtain ⟨heq, rfl⟩ : exec i = exec1 sz true (aluNeg sz) dst ∧ edge = signBit sz := by
    rcases hi with ⟨rfl, rfl, rfl⟩ | ⟨rfl, rfl, rfl⟩ <;> exact ⟨rfl, rfl⟩
  refine ⟨oneOperandFaults heq fun _ => ⟨rfl, fun _ _ _ => nofun⟩, fun O w r h hdst hr => ?_⟩
  rw [heq]
  exact exec1_of_result h hdst (aluNeg_eq sz _ _ hr)

/-- Settles O31: both forms are `exec1` of one operation at their size, which has no result to commit. -/
theorem testSetsFlagsOnly : Obligations.TestSetsFlagsOnly := by
  intro s src i sz hi
  have heq : exec i = exec1 sz false (aluTst sz) src := by
    rcases hi with ⟨rfl, rfl⟩ | ⟨rfl, rfl⟩ <;> rfl
  refine ⟨?_, oneOperandFaults heq nofun, fun O w h => ?_⟩
  · rcases hi with ⟨rfl, rfl⟩ | ⟨rfl, rfl⟩
    · exact Laws.OpcodeRow.tst src rfl
    · exact Laws.OpcodeRow.tstb src rfl
  · rw [heq]
    exact exec1_of_no_result h (aluTst_eq sz _ _ h.value_masked)

/-- Settles O32: each form is `exec1` of an operation whose flags are `shiftFlags` of its result; the right shift of a byte
stays a byte because its operand is one. -/
theorem arithmeticShifts : Obligations.ArithmeticShifts := by
  intro s dst i sz f out hi
  obtain ⟨op, heq, hresult, hop⟩ : ∃ op, exec i = exec1 sz true op dst ∧ (∀ cfg fl v, (op cfg fl v).result ≠ none) ∧
      ∀ cfg fl v, v = v &&& sizeMask sz → op cfg fl v = ⟨some (f v), shiftFlags sz cfg fl (v.getLsbD out) (f v)⟩ := by
    rcases hi with ⟨rfl, rfl, rfl, rfl⟩ | ⟨rfl, rfl, rfl, rfl⟩ | ⟨rfl, rfl, rfl, rfl⟩ | ⟨rfl, rfl, rfl, rfl⟩
    · exact ⟨_, rfl, fun _ _ _ => nofun, fun cfg fl _ hv => aluAsr_eq .word cfg fl hv⟩
    · exact ⟨_, rfl, fun _ _ _ => nofun, fun cfg fl _ hv => aluAsr_eq .byte cfg fl hv⟩
    · exact ⟨_, rfl, fun _ _ _ => nofun, fun cfg fl _ _ => aluAsl_eq .word cfg fl (and_sizeMask_word _).symm⟩
    · exact ⟨_, rfl, fun _ _ _ => nofun, fun cfg fl _ _ => aluAsl_eq .byte cfg fl rfl⟩
  refine ⟨oneOperandFaults heq fun _ => ⟨rfl, hresult⟩, ?_⟩
  rintro O w _ h hdst rfl
  rw [heq]
  exact exec1_of_result h hdst (hop _ _ _ h.value_masked)

/-- Settles O33: the size MFPS commits at is read off the operand's mode, and a commit keeps the flags. -/
theorem mfpsWritesThePackedByte : Obligations.MfpsWritesThePackedByte := by
  refine fun s dst => ⟨oneOperandFaults_mfps dst s, fun O w h hdst => ?_⟩
  rw [← mfpsSize_of_resolve h]
  obtain ⟨w', hc, hflags⟩ := commit_of_writable (sz' := mfpsSize s.config O.wb) (v := s.flags.pack.setWidth 16) h hdst
  rw [h.flags] at hflags
  refine ⟨w', hc, ?_⟩
  rw [← hflags]
  exact execMfps_ok h hc

/-- Settles O34: `exec1` of an operation that has no result and unpacks the operand's byte. -/
theorem mtpsSetsAllFlags : Obligations.MtpsSetsAllFlags := fun _ _ =>
  ⟨oneOperandFaults rfl nofun, fun _ _ h => exec1_of_no_result h (aluMtps_eq ..)⟩

/-! #### The frame of the writers -/

theorem commit_flags {sz : Size} {wb : WriteBack} {v : Word} {w w' : Work} (h : commit sz wb v w = .ok w') :
    w'.flags = w.flags := by
  rcases commit_cases h with ⟨-, rfl⟩ | ⟨r, -, rfl⟩ | ⟨a, m, -, -, rfl⟩ | ⟨a, m, -, -, rfl⟩ <;> rfl

/-- The two ends of an instruction that commits to its one operand. -/
inductive OneOperandEnd (sz : Size) (o : Operand) (s : State) : State → Prop
  | completed {O : Desc} {w w' : Work} (resolved : Resolved1 sz true o s O w) (frame : CommitFrame sz o O w w') :
      OneOperandEnd sz o s (complete s O.extra w')
  | faulted (f : Trap) : OneOperandEnd sz o s (takeFault s f)

theorem exec1_end_of_dest {sz : Size} {op : Config → Flags → Word → Alu} {o : Operand} {s t : State}
    (h : exec1 sz true op o s = .next t) : OneOperandEnd sz o s t := by
  rcases exec1_next_cases h with ⟨O, w, w', hO, hF, rfl⟩ | ⟨f, rfl⟩
  · exact .completed hO (finishAlu_frame hO hF)
  · exact .faulted f

/-- MFPS ends as a writer of its operand does, and writes no flag. -/
theorem execMfps_end_and_flags {dst : Operand} {s t : State} (h : execMfps dst s = .next t) :
    OneOperandEnd .byte dst s t ∧ t.flags = s.flags := by
  rcases runInstr_cases _ s with ⟨extra, w', hb, he⟩ | ⟨f, -, he⟩ <;> cases he.symm.trans h
  · simp only [except_bind_ok, Except.ok.injEq, Prod.mk.injEq] at hb
    obtain ⟨⟨O, w⟩, hO, w₂, hc, rfl, rfl⟩ := hb
    exact ⟨.completed hO (commit_frame hO hc), (commit_flags hc).trans (resolve_flags_mem hO).1⟩
  · exact ⟨.faulted f, rfl⟩

section

variable {sz : Size} {o : Operand} {s t : State}

theorem OneOperandEnd.sameOutsideCpu (h : OneOperandEnd sz o s t) : SameOutsideCpu s t := by
  cases h <;> exact ⟨rfl, rfl, rfl, rfl, rfl, rfl, rfl⟩

theorem OneOperandEnd.get {r : RegNum} (h : OneOperandEnd sz o s t) (hr : r ≠ 7)
    (ho : ¬(r = o.reg ∧ (o.mode = .register ∨ Steps o))) : t.regs.get r = s.regs.get r := by
  cases h with
  | completed hO hframe => rw [complete_get hr, hframe.regs r (by tauto), resolve_get hO (by tauto), ofState_regs]
  | faulted f => exact takeFault_get hr s f

/-- A write of the operand is at its effective address, and no other write of memory is made. -/
theorem OneOperandEnd.mem_cases (h : OneOperandEnd sz o s t) :
    t.mem = s.mem ∨ o.mode ≠ .register ∧ Writable o ∧ ∃ O w a v,
      Resolved1 sz true o s O w ∧ O.ea = some a ∧ memWrite s.mem a sz v = .ok t.mem := by
  cases h with
  | @completed O w w' hO hframe =>
    rw [complete_mem, ← hO.mem]
    refine hframe.mem.imp_right ?_
    rintro ⟨hm, hdst, a, v, hea, hw⟩
    exact ⟨hm, hdst, O, w, a, v, hO, hea, hw⟩
  | faulted f => exact .inl rfl

theorem OneOperandEnd.sameMemory (h : OneOperandEnd sz o s t)
    (hno : o.mode = .register ∨ ¬Writable o ∨ ¬∃ O w, Resolved1 sz true o s O w) : SameMemory s t := by
  rcases h.mem_cases with hmem | ⟨hm, hdst, O, w, a, v, hO, -, -⟩
  · exact fun x => by rw [hmem]
  · exact (hno.elim hm fun hno => hno.elim (absurd hdst) (absurd ⟨O, w, hO⟩)).elim

theorem OneOperandEnd.sameMemoryOutside {O : Desc} {w : Work} {a : Word} (h : OneOperandEnd sz o s t)
    (hO : Resolved1 sz true o s O w) (hea : O.ea = some a) : SameMemoryOutside s t sz a := by
  rcases h.mem_cases with hmem | ⟨-, -, O', w', a', v, hO', hea', hw⟩
  · exact fun x _ _ => by rw [hmem]
  · cases hO.unique hO'
    cases hea.symm.trans hea'
    exact fun x hlow hhigh => memWrite_sameOutside hw hlow hhigh

end

/-- Settles O43: MFPS and each `exec1` of an operation commit once, to their operand (`OneOperandEnd`). -/
theorem oneOperandWritersFrame : Obligations.OneOperandWritersFrame := by
  intro s t dst i sz hi h
  obtain ⟨hend, hT⟩ : OneOperandEnd sz dst s t ∧ t.flags.t = s.flags.t := by
    obtain ⟨rfl, rfl⟩ | ⟨op, heq, hT⟩ : (i = .mfps dst ∧ sz = .byte) ∨
        ∃ op, exec i = exec1 sz true op dst ∧ ∀ cfg f v, (op cfg f v).flags.t = f.t := by
      rcases hi with ⟨rfl, rfl | rfl | rfl | rfl | rfl | rfl | rfl⟩ |
        ⟨rfl, rfl | rfl | rfl | rfl | rfl | rfl | rfl | hmfps⟩
      case inr.inr.inr.inr.inr.inr.inr.inr => exact .inl ⟨hmfps, rfl⟩
      all_goals exact .inr ⟨_, rfl, fun _ _ _ => rfl⟩
    · obtain ⟨hend, hflags⟩ := execMfps_end_and_flags h
      exact ⟨hend, congrArg Flags.t hflags⟩
    · have h₁ : exec1 sz true op dst s = .next t := heq ▸ h
      exact ⟨exec1_end_of_dest h₁, exec1_keeps_flag h₁ Flags.t (hT _ _)⟩
  refine ⟨hend.sameOutsideCpu, fun r hr hdst => hend.get hr hdst, hT, ?_, ?_,
    fun hdst => hend.sameMemory (hdst.imp_right .inl), fun hno => hend.sameMemory (.inr (.inr hno)),
    fun _ _ _ hO hea => hend.sameMemoryOutside hO hea⟩
  · rintro rfl
    exact (execMfps_end_and_flags h).2
  · rintro (rfl | rfl | rfl | rfl | rfl | rfl) hV <;>
      exact exec1_keeps_flag h Flags.v fun _ => unstatedV_unchanged hV ..

end Sys2Proof.Machine

/-! ### Branches and JMP

A branch is `execBranch` of its condition, with one next state (`execBranch_eq`). JMP has two ends (`execJmp_next_cases`):
it jumps to an effective address whose word could be read, or takes a fault. -/

namespace Sys2Proof.Machine

/-- The write of x[7] that ends a taken branch and a JMP is kept, and nothing is advanced (44_execution_loop.md R214,
R215). -/
theorem complete_writeReg_pc {s : State} {w : Work} (hflags : w.flags = s.flags) (hmem : w.mem = s.mem) (extra : Nat)
    (a : Word) : complete s extra (w.writeReg pcReg a) = { s with regs := w.regs.put 7 a } := by
  simp [complete, hflags, hmem, pcReg]

/-! #### Branches -/

theorem branchTarget_eq (pc : Word) (disp : Int) : branchTarget pc disp = pc + 2 + BitVec.ofInt 16 (2 * disp) := by
  have hpc : BitVec.ofInt 16 pc.toNat = pc := by simp
  simp only [branchTarget, BitVec.ofInt_add, hpc]
  rfl

/-- The next state of a branch, `P` being its condition (43_branch_jump.md R190). -/
theorem execBranch_eq (taken : Flags → Bool) (disp : Int) {s : State} {P : Prop} [Decidable P]
    (hP : taken s.flags = true ↔ P) :
    execBranch taken disp s = .next { s with
      regs := s.regs.put 7 (if P then s.pc + 2 + BitVec.ofInt 16 (2 * disp) else s.pc + 2) } := by
  by_cases h : P
  · have ht : taken (Work.ofState s).flags = true := hP.2 h
    simp only [execBranch, runInstr, ht, if_true, if_pos h, branchTarget_eq]
    exact congrArg _ (complete_writeReg_pc rfl rfl ..)
  · have ht : ¬taken (Work.ofState s).flags = true := fun ht => h (hP.1 ht)
    simp only [execBranch, runInstr, if_neg ht, if_neg h]
    rfl

/-- Settles O35: each branch is `execBranch` of its condition. -/
theorem branchesMoveThePcOnly : Obligations.BranchesMoveThePcOnly := by
  rintro s disp _ _ rfl rfl
  exact ⟨execBranch_eq (fun _ => true) disp (P := True) (by simp), execBranch_eq (fun f => !f.z) disp (by simp),
    execBranch_eq (fun f => f.z) disp Iff.rfl, execBranch_eq (fun f => !f.n) disp (by simp),
    execBranch_eq (fun f => f.n) disp Iff.rfl⟩

/-- A branch moves x[7] to its target or to the next word, and does nothing else. -/
theorem exec_branch_next {i : Instr} {disp : Int} {s t : State}
    (hi : i = .br disp ∨ i = .bne disp ∨ i = .beq disp ∨ i = .bpl disp ∨ i = .bmi disp) (h : exec i s = .next t) :
    ∃ a, (a = s.pc + 2 + BitVec.ofInt 16 (2 * disp) ∨ a = s.pc + 2) ∧ t = { s with regs := s.regs.put 7 a } := by
  obtain ⟨taken, heq⟩ : ∃ taken, exec i = execBranch taken disp := by
    rcases hi with rfl | rfl | rfl | rfl | rfl
    · exact ⟨fun _ => true, rfl⟩
    · exact ⟨fun f => !f.z, rfl⟩
    · exact ⟨fun f => f.z, rfl⟩
    · exact ⟨fun f => !f.n, rfl⟩
    · exact ⟨fun f => f.n, rfl⟩
  rw [heq, execBranch_eq taken disp Iff.rfl] at h
  cases h
  exact ⟨_, ite_eq_or_eq .., rfl⟩

/-! #### JMP -/

/-- A memory operand has an effective address, and its value was read there (40_addressing_modes.md R109). -/
theorem resolve_ea_read {sz : Size} {o : Operand} {p : Word} {asDest : Bool} {w w' : Work} {d : Desc}
    (h : resolve sz o p asDest w = .ok (d, w')) (hm : o.mode ≠ .register) :
    ∃ a, d.ea = some a ∧ memRead w.mem a sz = .ok d.value := by
  obtain ⟨d', hmode, rfl⟩ := resolve_ok_iff.1 h
  obtain ⟨a, hea, hread, -⟩ := (resolveMode_facts hmode).memory hm
  cases asDest <;> exact ⟨a, hea, hread⟩

section

variable {dst : Operand} {s t : State}

theorem execJmp_of_register (hm : dst.mode = .register) :
    execJmp dst s = .next (takeFault s (.invalidDestination .register dst.reg)) := by
  simp [execJmp, runInstr, hm]

/-- A resolve that faults is not one of mode 0, which resolves always (40_addressing_modes.md R94). -/
theorem execJmp_of_error {f : Trap} (h : resolve .word dst s.pc false (Work.ofState s) = .error f) :
    execJmp dst s = .next (takeFault s f) := by
  have hm : dst.mode ≠ .register := by
    obtain ⟨mode, r⟩ := dst
    rintro rfl
    cases (resolve_register ..).symm.trans h
  simp [execJmp, runInstr, hm, h, bind, Except.bind]

theorem execJmp_of_resolved {O : Desc} {w : Work} {a : Word} (hm : dst.mode ≠ .register)
    (h : Resolved1 .word false dst s O w) (hea : O.ea = some a) :
    execJmp dst s = .next { s with regs := w.regs.put 7 a } := by
  have hO : resolve .word dst s.pc false (Work.ofState s) = .ok (O, w) := h
  simp [execJmp, runInstr, hm, hO, hea, bind, Except.bind, complete_writeReg_pc h.flags h.mem]

/-- The two ends of a JMP. -/
theorem execJmp_next_cases (h : execJmp dst s = .next t) :
    (∃ O w a, Resolved1 .word false dst s O w ∧ memRead s.mem a .word = .ok O.value ∧
      t = { s with regs := w.regs.put 7 a }) ∨ ∃ f, t = takeFault s f := by
  by_cases hm : dst.mode = .register
  · cases (execJmp_of_register hm).symm.trans h
    exact .inr ⟨_, rfl⟩
  cases hO : resolve .word dst s.pc false (Work.ofState s) with
  | error f =>
    cases (execJmp_of_error hO).symm.trans h
    exact .inr ⟨f, rfl⟩
  | ok d =>
    obtain ⟨O, w⟩ := d
    obtain ⟨a, hea, hread⟩ := resolve_ea_read hO hm
    cases (execJmp_of_resolved hm hO hea).symm.trans h
    exact .inl ⟨O, w, a, hO, hread, rfl⟩

end

/-- Settles O36: mode 0 and a faulting resolve by their own lemmas; every other resolve has an effective address. -/
theorem jumpGoesToTheEffectiveAddress : Obligations.JumpGoesToTheEffectiveAddress := by
  refine fun s dst => ⟨execJmp_of_register, fun f => execJmp_of_error, fun O w hm h => ?_⟩
  obtain ⟨a, hea, -⟩ := resolve_ea_read h hm
  exact ⟨a, hea, execJmp_of_resolved hm h hea⟩

/-! #### Where the program counter can go -/

theorem pc_of_regs_put (s : State) (x : Regs) (a : Word) : State.pc { s with regs := x.put 7 a } = a :=
  Regs.get_put_self ..

/-- A sum is even exactly when both words are even or both odd. -/
theorem getLsbD_zero_add (a b : Word) : (a + b).getLsbD 0 = (a.getLsbD 0 ^^ b.getLsbD 0) := by
  rw [BitVec.getLsbD_add (by decide), BitVec.carry_zero, Bool.xor_false]

/-- The offset of a branch, twice its displacement, is even (43_branch_jump.md R199). -/
theorem getLsbD_zero_ofInt_two_mul (disp : Int) : (BitVec.ofInt 16 (2 * disp)).getLsbD 0 = false := by
  rw [two_mul, BitVec.ofInt_add, getLsbD_zero_add, Bool.xor_self]

/-- Settles O37: a JMP that does not fault has read the word at its target, so the target passed the access checks; a branch
adds even numbers to x[7]. -/
theorem jumpTargetsAreFetchable : Obligations.JumpTargetsAreFetchable := by
  constructor
  · intro s t dst h hlog
    rcases execJmp_next_cases h with ⟨O, w, a, -, hread, rfl⟩ | ⟨f, rfl⟩
    · obtain ⟨hvalid, heven⟩ := (checkAccess_ok_iff ..).1 ((memRead_ok_iff ..).1 hread).1
      rw [pc_of_regs_put]
      exact ⟨hvalid, heven rfl⟩
    · simp at hlog
  · intro s t disp i hs hi h
    obtain ⟨a, ha, rfl⟩ := exec_branch_next hi h
    have hnext : (s.pc + 2).getLsbD 0 = false := by rw [getLsbD_zero_add, hs]; rfl
    rw [pc_of_regs_put]
    rcases ha with rfl | rfl
    · rw [getLsbD_zero_add, hnext, getLsbD_zero_ofInt_two_mul]; rfl
    · exact hnext

/-- Settles O45: a branch and a jump write x[7] only, past the step of the JMP's mode; a fault advances x[7] and logs. -/
theorem branchAndJumpFrame : Obligations.BranchAndJumpFrame := by
  constructor
  · intro s t disp i hi h
    obtain ⟨a, -, rfl⟩ := exec_branch_next hi h
    exact ⟨⟨rfl, rfl, rfl, rfl, rfl, rfl, rfl⟩, rfl, fun _ => rfl, rfl, fun r hr => Regs.get_put_ne _ _ hr⟩
  · intro s t dst h
    have hjmp : execJmp dst s = .next t := h
    refine ⟨runInstr_sameOutsideCpu hjmp, ?_⟩
    rcases execJmp_next_cases hjmp with ⟨O, w, a, hO, -, rfl⟩ | ⟨f, rfl⟩
    · exact ⟨rfl, fun _ => rfl, fun r hr hsteps => (Regs.get_put_ne _ _ hr).trans (resolve_get hO hsteps)⟩
    · exact ⟨rfl, fun _ => rfl, fun r hr _ => takeFault_get hr s f⟩

end Sys2Proof.Machine

/-! ### The end of an instruction

Every instruction but the halt sentinel is `runInstr` of a body that raises no DecodeFault (`exec_eq_runInstr`), so it
completes or has its fault taken. -/

namespace Sys2Proof.Machine

/-! #### Extra words and writes of x[7] -/

theorem extraWords_eq (o : Operand) :
    extraWords o = if (o.reg = 7 ∧ (o.mode = .autoInc ∨ o.mode = .autoIncDeferred)) ∨
      o.mode = .indexed ∨ o.mode = .indexedDeferred then 1 else 0 := by
  obtain ⟨mode, reg⟩ := o
  cases mode <;> simp [extraWords] <;> rfl

theorem decrementsPc_eq (o : Operand) :
    decrementsPc o = decide (o.reg = 7 ∧ (o.mode = .autoDec ∨ o.mode = .autoDecDeferred)) := by
  simp only [decrementsPc, ← Bool.decide_or, ← Bool.decide_and]
  rfl

/-- What a resolve does to the program counter: the extra words it takes and the write of x[7] it makes
(40_addressing_modes.md R104, R105). -/
theorem resolve_extra_pcWritten {sz : Size} {o : Operand} {p : Word} {asDest : Bool} {w w' : Work} {d : Desc}
    (h : resolve sz o p asDest w = .ok (d, w')) :
    d.extra = extraWords o ∧ w'.pcWritten = (w.pcWritten || decrementsPc o) := by
  obtain ⟨d', hmode, rfl⟩ := resolve_ok_iff.1 h
  have facts := resolveMode_facts hmode
  exact ⟨by cases asDest <;> exact facts.extra, facts.pcWritten⟩

theorem commit_pcWritten {sz : Size} {wb : WriteBack} {v : Word} {w w' : Work} (h : commit sz wb v w = .ok w') :
    w'.pcWritten = (w.pcWritten || decide (wb = .writeRegister 7)) := by
  rcases commit_cases h with ⟨rfl, rfl⟩ | ⟨r, rfl, rfl⟩ | ⟨a, m, rfl, -, rfl⟩ | ⟨a, m, rfl, -, rfl⟩
  · simp
  · simp only [writeReg_pcWritten, WriteBack.writeRegister.injEq]
    rfl
  · simp
  · simp

/-- The address after an instruction, with the extra words counted as a word (44_execution_loop.md R215). -/
theorem nextPc_eq (pc : Word) (extra : Nat) : nextPc pc extra = pc + 2 + 2 * BitVec.ofNat 16 extra := by
  rw [nextPc, BitVec.ofNat_add, BitVec.ofNat_mul, BitVec.add_assoc]
  rfl

theorem runInstr_of_ok {body : Work → Except Trap (Nat × Work)} {s : State} {extra : Nat} {w : Work}
    (h : body (Work.ofState s) = .ok (extra, w)) : runInstr body s = .next (complete s extra w) := by
  simp only [runInstr, h]

/-- Settles O16: `complete` advances x[7] unless the body wrote it, and every mode's rule counts its own extra words. -/
theorem pcAdvancesPastExtraWords : Obligations.PcAdvancesPastExtraWords := by
  constructor
  · intro body s extra w h
    refine ⟨complete s extra w, runInstr_of_ok h, ?_, fun r hr => complete_get hr s extra w, rfl, rfl, rfl,
      runInstr_sameOutsideCpu (runInstr_of_ok h)⟩
    rw [complete_pc, nextPc_eq]
    rfl
  · intro sz o p asDest w w' d h
    rw [(resolve_extra_pcWritten h).1, extraWords_eq]

/-- Settles O17: of the mode rules those of modes 4 and 5 write x[7], of the tags that of register 7. -/
theorem pcWrittenRecordsWritesOfR7 : Obligations.PcWrittenRecordsWritesOfR7 := by
  constructor
  · intro sz o p asDest w w' d h
    rw [(resolve_extra_pcWritten h).2, decrementsPc_eq]
  · intro sz wb v w w' h
    exact commit_pcWritten h

/-! #### The faults of an instruction's body -/

/-- The computation does not fail with a DecodeFault, which only the loop raises (60_exceptions.md R274). -/
def NoDecodeFault {α : Type} (x : Except Trap α) : Prop := ∀ W, x ≠ .error (.decodeFault W)

theorem NoDecodeFault.ok {α : Type} (a : α) : NoDecodeFault (.ok a) := nofun

theorem NoDecodeFault.invalidDestination {α : Type} (mode : Mode) (reg : RegNum) :
    NoDecodeFault (α := α) (.error (.invalidDestination mode reg)) := nofun

theorem NoDecodeFault.bind {α β : Type} {x : Except Trap α} {f : α → Except Trap β} (hx : NoDecodeFault x)
    (hf : ∀ a, NoDecodeFault (f a)) : NoDecodeFault (x >>= f) := by
  intro W h
  rcases (except_bind_error ..).1 h with he | ⟨a, -, he⟩
  · exact hx W he
  · exact hf a W he

theorem resolve_noDecodeFault {sz : Size} {o : Operand} {p : Word} {asDest : Bool} {w : Work} :
    NoDecodeFault (resolve sz o p asDest w) := by
  intro W h
  obtain ⟨e, he⟩ := resolve_error_access h
  cases he

theorem store_noDecodeFault {w : Work} {a : Word} {sz : Size} {v : Word} : NoDecodeFault (w.store a sz v) := by
  intro W h
  obtain ⟨e, -, he⟩ := (store_error_iff ..).1 h
  cases he

theorem commit_noDecodeFault {sz : Size} {wb : WriteBack} {v : Word} {w : Work} :
    NoDecodeFault (commit sz wb v w) := by
  cases wb with
  | discard => exact .ok _
  | invalid mode reg => exact .invalidDestination mode reg
  | writeRegister r => exact .ok _
  | writeMemoryWord a => exact store_noDecodeFault
  | writeMemoryByte a => exact store_noDecodeFault

theorem finishAlu_noDecodeFault {sz : Size} {wb : WriteBack} {out : Alu} {w : Work} :
    NoDecodeFault (finishAlu sz wb out w) := by
  intro W h
  unfold finishAlu at h
  split at h
  · cases h
  · split at h <;> cases h
    next hc => exact commit_noDecodeFault W hc

/-- Every instruction but the halt sentinel is the `runInstr` of its body, which raises no DecodeFault. -/
theorem exec_eq_runInstr {i : Instr} (hi : i ≠ .halt) (s : State) :
    ∃ body, exec i s = runInstr body s ∧ ∀ w, NoDecodeFault (body w) := by
  cases instr_family i with
  | twoOperand sz op src dst _ heq =>
    refine ⟨_, congrFun heq s, fun w => ?_⟩
    exact resolve_noDecodeFault.bind fun _ => resolve_noDecodeFault.bind fun _ =>
      finishAlu_noDecodeFault.bind fun _ => .ok _
  | oneOperand sz asDest op o _ heq =>
    refine ⟨_, congrFun heq s, fun w => ?_⟩
    exact resolve_noDecodeFault.bind fun _ => finishAlu_noDecodeFault.bind fun _ => .ok _
  | mfps o heq =>
    subst heq
    refine ⟨_, (rfl : execMfps o s = runInstr _ s), fun w => ?_⟩
    exact resolve_noDecodeFault.bind fun _ => commit_noDecodeFault.bind fun _ => .ok _
  | branch taken disp _ heq =>
    refine ⟨_, congrFun heq s, fun w => ?_⟩
    split <;> exact .ok _
  | jmp o heq =>
    subst heq
    refine ⟨_, (rfl : execJmp o s = runInstr _ s), fun w => ?_⟩
    dsimp only
    split
    · exact .invalidDestination _ _
    · refine resolve_noDecodeFault.bind fun d => ?_
      split
      · exact .ok _
      · exact .invalidDestination _ _
  | halt heq => exact absurd heq hi

/-- Settles O38: the halt sentinel is `stopRun` alone. -/
theorem haltStopsTheRun : Obligations.HaltStopsTheRun := fun _ => rfl

/-- Settles O39: the log changes only where a fault of the instruction's body is taken, and that fault is no DecodeFault. -/
theorem faultingInstructionHasNoOtherEffect : Obligations.FaultingInstructionHasNoOtherEffect := by
  refine ⟨fun _ _ => rfl, fun _ _ _ => rfl, fun i s t h => ?_⟩
  by_cases hi : i = .halt
  · subst hi
    cases h
    exact .inl rfl
  obtain ⟨body, heq, hbody⟩ := exec_eq_runInstr hi s
  rcases runInstr_cases body s with ⟨extra, w, -, he⟩ | ⟨f, hf, he⟩ <;> cases he.symm.trans (heq.symm.trans h)
  · exact .inl rfl
  · refine .inr ⟨f.logEntry s.pc, rfl, ?_⟩
    cases f with
    | access e => exact .inl ⟨e.kind, e.addr, rfl⟩
    | invalidDestination m r => exact .inr ⟨m, r, rfl⟩
    | decodeFault W => exact absurd hf (hbody _ W)

/-- An instruction other than the halt sentinel answers a next state and stays inside the CPU. -/
theorem exec_next_of_ne_halt {i : Instr} (hi : i ≠ .halt) (s : State) :
    ∃ t, exec i s = .next t ∧ SameOutsideCpu s t := by
  obtain ⟨body, heq, -⟩ := exec_eq_runInstr hi s
  obtain ⟨t, ht⟩ : ∃ t, runInstr body s = .next t := by
    rcases runInstr_cases body s with ⟨extra, w, -, he⟩ | ⟨f, -, he⟩
    · exact ⟨_, he⟩
    · exact ⟨_, he⟩
  exact ⟨t, heq.trans ht, runInstr_sameOutsideCpu ht⟩

/-- Settles O41: a fault in an instruction's body is a next state as well, and the halt sentinel stops the run. -/
theorem everyInstructionAnswersANextState : Obligations.EveryInstructionAnswersANextState := by
  intro i s
  by_cases hi : i = .halt
  · subst hi
    exact ⟨stopRun s .halted, rfl, (absurd rfl ·), rfl, rfl, rfl⟩
  · obtain ⟨t, ht, hsame⟩ := exec_next_of_ne_halt hi s
    have ⟨_, hsteps, hlast, hconfig, _⟩ := hsame
    exact ⟨t, ht, fun _ => hsame, hlast, hconfig, hsteps⟩

end Sys2Proof.Machine

/-! ### The execution loop

One equation for each branch of `runStep` (44_execution_loop.md R213). A step from a Running state ends the run or counts one
step (`runStep_progress`), so the run ends at the ceiling at the latest. -/

namespace Sys2Proof.Machine

section

variable {s : State} {W : Word}

theorem runStep_of_fetch_error {e : AccessError} (h : fetch s = .error e) : runStep s = .next (stopFetchFault s e) := by
  simp only [runStep, h]

theorem runStep_of_halt_word (h : fetch s = .ok 0) : runStep s = exec .halt s := by
  simp only [runStep, h, if_true]

theorem runStep_at_ceiling (h : fetch s = .ok W) (hW : W ≠ 0) (hsteps : s.steps = s.config.stepLimit) :
    runStep s = .next (stopStepCeiling s) := by
  simp only [runStep, h, if_neg hW, if_pos hsteps]

theorem runStep_of_decoded {i : Instr} (h : fetch s = .ok W) (hW : W ≠ 0) (hsteps : s.steps ≠ s.config.stepLimit)
    (hi : decodeWord W = .ok i) : runStep s = exec i (countStep s) := by
  simp only [runStep, h, if_neg hW, if_neg hsteps, hi]

/-- The fetch at a valid even address reads the word there. -/
theorem fetch_of_valid (hvalid : s.pc ≤ validTop) (heven : s.pc.getLsbD 0 = false) :
    fetch s = .ok (s.mem.readWordAt s.pc) :=
  (memRead_ok_iff ..).2 ⟨(checkAccess_ok_iff ..).2 ⟨hvalid, fun _ => heven⟩, rfl⟩

end

/-- The decoder answers the halt sentinel for the word 0 only. -/
theorem decodeWord_eq_halt_iff {W : Word} : decodeWord W = .ok .halt ↔ W = 0 := by
  rw [decodeWord_eq_ok_iff]
  exact ⟨fun h => h.1.symm, fun h => ⟨h.symm, rfl⟩⟩

theorem decodeWord_of_decode_pair {low high : Byte} {i : Instr} (h : decode [low, high] = .ok (i, [])) :
    decodeWord (wordOfBytes low high) = .ok i := by
  simp only [decode] at h
  split at h <;> cases h
  assumption

/-- Settles O47: the word fetched is the word decoded, and it is 0 exactly for the halt sentinel. -/
theorem stepRunsTheDecodedInstruction : Obligations.StepRunsTheDecodedInstruction := by
  intro s i hrun hvalid heven hdecode
  have hfetch := fetch_of_valid hvalid heven
  have hi : decodeWord (s.mem.readWordAt s.pc) = .ok i := decodeWord_of_decode_pair hdecode
  rw [step_of_running hrun]
  constructor
  · intro hne hsteps
    refine runStep_of_decoded hfetch (fun hzero => hne ?_) hsteps hi
    cases (decodeWord_eq_halt_iff.2 hzero).symm.trans hi
    rfl
  · rintro rfl
    exact runStep_of_halt_word (hfetch.trans (congrArg _ (decodeWord_eq_halt_iff.1 hi)))

/-- Settles O48: each stop is one branch of `runStep`. -/
theorem runStopsBetweenInstructions : Obligations.RunStopsBetweenInstructions := by
  intro s hrun
  rw [step_of_running hrun]
  refine ⟨?_, runStep_of_halt_word, ?_⟩
  · rintro e he _ rfl
    exact runStep_of_fetch_error he
  · rintro W hW hne hsteps _ rfl
    exact runStep_at_ceiling hW hne hsteps

/-! #### Termination -/

/-- The run has ended in `t`, and its result was added to the replies (44_execution_loop.md R221). -/
structure RunEnded (replies : List Reply) (t : State) : Prop where
  idle : t.fsm = .idle
  ceiling : t.steps ≤ t.config.stepLimit
  returned : ∃ r, t.replies = replies ++ [.run r] ∧ r.steps = t.steps ∧ r.faultLog = t.faultLog

/-- The run goes on in `t`, with one step more counted, the ceiling kept and nothing returned. -/
structure RunAdvanced (s t : State) : Prop where
  running : t.fsm = .running
  steps : t.steps = s.steps + 1
  ceiling : t.steps ≤ t.config.stepLimit
  config : t.config = s.config
  replies : t.replies = s.replies

/-- A stop returns the result of the run, whatever it logs last. -/
theorem stopRun_runEnded {s : State} (h : s.steps ≤ s.config.stepLimit) (log : List LogEntry) (reason : StopReason) :
    RunEnded s.replies (stopRun { s with faultLog := log } reason) :=
  ⟨rfl, h, _, rfl, rfl, rfl⟩

/-- A step from a Running state ends the run or counts one step, within the ceiling (44_execution_loop.md R222). -/
theorem runStep_progress {s : State} (hrun : s.fsm = .running) (hle : s.steps ≤ s.config.stepLimit) :
    ∃ t, runStep s = .next t ∧ (RunEnded s.replies t ∨ RunAdvanced s t) := by
  rcases runStep_cases s with ⟨e, -, he⟩ | ⟨-, he⟩ | ⟨W, -, -, -, he⟩ | ⟨W, i, -, -, hne, -, he⟩ |
    ⟨W, e, -, -, hne, -, he⟩
  · exact ⟨_, he, .inl (stopRun_runEnded hle _ _)⟩
  · exact ⟨_, he, .inl (stopRun_runEnded hle s.faultLog _)⟩
  · exact ⟨_, he, .inl (stopRun_runEnded hle _ _)⟩
  · have hcount : (countStep s).steps ≤ (countStep s).config.stepLimit := Nat.lt_of_le_of_ne hle hne
    by_cases hi : i = .halt
    · subst hi
      exact ⟨_, he, .inl (stopRun_runEnded hcount s.faultLog _)⟩
    · obtain ⟨t, ht, hfsm, hsteps, -, hconfig, -, hreplies, -⟩ := exec_next_of_ne_halt hi (countStep s)
      exact ⟨t, he.trans ht, .inr ⟨hfsm.trans hrun, hsteps, by rwa [hsteps, hconfig], hconfig, hreplies⟩⟩
  · exact ⟨_, he, .inr ⟨hrun, rfl, Nat.lt_of_le_of_ne hle hne, rfl, rfl⟩⟩

theorem core_run_succ {s t : State} (h : step s = .next t) (k : Nat) : core.run (k + 1) s = core.run k t := by
  have hcore : core.step s = .next t := h
  simp only [Host.Core.run, hcore]

/-- A run that would pass the ceiling in `n` counted steps ends within `n` steps: each step that does not end it is
counted. -/
theorem run_ends_within (n : Nat) {s : State} (hrun : s.fsm = .running) (hle : s.steps ≤ s.config.stepLimit)
    (hn : s.config.stepLimit < s.steps + n) :
    ∃ k t, k ≤ n ∧ core.run k s = .next t ∧ RunEnded s.replies t := by
  induction n generalizing s with
  | zero => exact absurd hn (Nat.not_lt.2 hle)
  | succ n ih =>
    obtain ⟨t, ht, hnext⟩ := runStep_progress hrun hle
    have hstep : step s = .next t := (step_of_running hrun).trans ht
    rcases hnext with hend | ⟨hfsm, hsteps, hceiling, hconfig, hreplies⟩
    · exact ⟨1, t, Nat.le_add_left 1 n, core_run_succ hstep 0, hend⟩
    · obtain ⟨k, u, hk, hu, hend⟩ := ih hfsm hceiling (by rw [hconfig]; omega)
      exact ⟨k + 1, u, by omega, (core_run_succ hstep k).trans hu, hreplies ▸ hend⟩

/-- Settles O50: at most one step more than the instructions left passes the ceiling. -/
theorem everyRunTerminates : Obligations.EveryRunTerminates := by
  intro s hrun hle
  obtain ⟨k, t, hk, ht, hidle, hceiling, hreturned⟩ :=
    run_ends_within (s.config.stepLimit - s.steps + 1) hrun hle (by omega)
  exact ⟨k, t, hk, ht, hidle, hceiling, hreturned⟩

end Sys2Proof.Machine

/-! ### The Idle step -/

namespace Sys2Proof.Machine

section

variable {s : State} {line : List Char}

/-- While the FSM is Idle a step is a step of the console (44_execution_loop.md R210). -/
theorem step_of_idle (h : s.fsm = .idle) : step s = consoleStep s := by
  simp only [step, h]

theorem consoleStep_of_ended (h : s.session = .ended) : consoleStep s = .fault .sessionEnded := by
  simp only [consoleStep, h]

theorem consoleStep_of_no_input (h : s.session = .active) (hinput : s.input = []) : consoleStep s = .next s := by
  simp only [consoleStep, h, hinput]

theorem consoleStep_of_line {rest : List (List Char)} (h : s.session = .active) (hinput : s.input = line :: rest) :
    consoleStep s = .next (runLine { s with input := rest } line) := by
  simp only [consoleStep, h, hinput]

theorem runLine_of_command {c : Command} (h : parseLine line = some c) : runLine s line = runCommand s c := by
  simp only [runLine, h]

theorem runLine_of_parse_fault (h : parseLine line = none) : runLine s line = reply s .parseError := by
  simp only [runLine, h]

end

/-- Settles O59: the console's next line runs as its command does, and EXEC_AT and QUIT are two of the commands. -/
theorem idleStepTakesOneLine : Obligations.IdleStepTakesOneLine := by
  intro s hidle
  rw [step_of_idle hidle]
  refine ⟨consoleStep_of_ended, consoleStep_of_no_input, fun line rest hactive hinput => ?_⟩
  rw [consoleStep_of_line hactive hinput]
  refine ⟨fun c hc => ?_, fun a ha => ?_, fun hquit => ?_, fun hnone => ?_⟩
  · rw [runLine_of_command hc]
  · rw [runLine_of_command ha]
    rfl
  · rw [runLine_of_command hquit]
    rfl
  · rw [runLine_of_parse_fault hnone]
    rfl

end Sys2Proof.Machine

/-! ### What the console's commands do -/

namespace Sys2Proof.Machine

/-! #### Values taken to a size -/

/-- A word already holds a number taken mod 2^16, and a byte one taken mod 2^8 (00_scope.md R13). -/
theorem ofNat_mod_two_pow (w v : Nat) : BitVec.ofNat w (v % 2 ^ w) = BitVec.ofNat w v :=
  BitVec.eq_of_toNat_eq (by simp only [BitVec.toNat_ofNat, Nat.mod_mod])

theorem lowByte_ofNat (v : Nat) : lowByte (BitVec.ofNat 16 v) = BitVec.ofNat 8 v :=
  BitVec.setWidth_ofNat_of_le (by decide) v

theorem highByte_ofNat (v : Nat) : highByte (BitVec.ofNat 16 v) = BitVec.ofNat 8 (v / 2 ^ 8) := by
  refine BitVec.eq_of_toNat_eq ?_
  simp only [highByte, BitVec.toNat_setWidth, BitVec.toNat_ushiftRight, BitVec.toNat_ofNat, Nat.shiftRight_eq_div_pow]
  omega

/-- A byte read as a word with a zero high byte is its low byte (20_memory.md R46). -/
theorem lowByte_setWidth (b : Byte) : lowByte (b.setWidth 16) = b :=
  (BitVec.setWidth_setWidth_of_le b (by decide)).trans (BitVec.setWidth_eq b)

/-! #### Memory commands -/

section

variable {s : State} {a : Word}

theorem paritySize_of_even (even : a.getLsbD 0 = false) : paritySize a = .word := by
  simp only [paritySize, even, Bool.false_eq_true, if_false]

theorem paritySize_of_odd (odd : a.getLsbD 0 = true) : paritySize a = .byte := by
  simp only [paritySize, odd, if_true]

theorem consoleMemRead_above (h : validTop < a) : consoleMemRead s a = reply s .busError := by
  simp only [consoleMemRead, hostRead, (memRead_error_iff ..).2 (checkAccess_above h _)]

theorem consoleMemWrite_above (h : validTop < a) (v : Nat) : consoleMemWrite s a v = reply s .busError := by
  simp only [consoleMemWrite, hostWrite, (memWrite_error_iff ..).2 (checkAccess_above h _)]

theorem consoleMemRead_even (h : a ≤ validTop) (even : a.getLsbD 0 = false) :
    consoleMemRead s a = reply { s with lastAccess := .memory a } (.word (s.mem.readWordAt a)) := by
  have hread := (memRead_ok_iff s.mem a .word _).2 ⟨checkAccess_even h even, rfl⟩
  simp only [consoleMemRead, hostRead, paritySize_of_even even, hread]

theorem consoleMemRead_odd (h : a ≤ validTop) (odd : a.getLsbD 0 = true) :
    consoleMemRead s a = reply { s with lastAccess := .memory a } (.byte (s.mem.read a.toNat)) := by
  have hread := (memRead_ok_iff s.mem a .byte _).2 ⟨checkAccess_byte h, rfl⟩
  simp only [consoleMemRead, hostRead, paritySize_of_odd odd, hread, lowByte_setWidth]

theorem consoleMemWrite_even (h : a ≤ validTop) (even : a.getLsbD 0 = false) (v : Nat) :
    consoleMemWrite s a v =
      reply { s with lastAccess := .memory a, mem := s.mem.writeWordAt a (BitVec.ofNat 16 v) } .nothing := by
  have hwrite := (memWrite_ok_iff s.mem _ a .word (BitVec.ofNat 16 v)).2 ⟨checkAccess_even h even, rfl⟩
  simp only [consoleMemWrite, hostWrite, paritySize_of_even even, hwrite]

theorem consoleMemWrite_odd (h : a ≤ validTop) (odd : a.getLsbD 0 = true) (v : Nat) :
    consoleMemWrite s a v =
      reply { s with lastAccess := .memory a, mem := s.mem.write a.toNat (BitVec.ofNat 8 v) } .nothing := by
  have hwrite := (memWrite_ok_iff s.mem _ a .byte (BitVec.ofNat 16 v)).2 ⟨checkAccess_byte h, rfl⟩
  simp only [consoleMemWrite, hostWrite, paritySize_of_odd odd, hwrite, lowByte_ofNat]

end

/-! #### Continuation -/

section

variable {s : State}

theorem consoleContinue_of_none (h : s.lastAccess = .none) : consoleContinue s = reply s .nothing := by
  simp only [consoleContinue, h]

theorem consoleContinue_of_memory {a : Word} (h : s.lastAccess = .memory a) :
    consoleContinue s = consoleMemRead s (continuationAddress a) := by
  simp only [consoleContinue, h]

theorem consoleContinue_of_register {n : RegNum} (h : s.lastAccess = .register n) :
    consoleContinue s = consoleRegRead s (n + 1) := by
  simp only [consoleContinue, h]

end

theorem continuationAddress_eq (a : Word) : continuationAddress a = a + if a.getLsbD 0 then 1 else 2 := by
  unfold continuationAddress
  split <;> rfl

/-- The address and the step to the next read have the same parity, so every continuation reads a word
(45_console_host.md R251). -/
theorem getLsbD_zero_continuationAddress (a : Word) : (continuationAddress a).getLsbD 0 = false := by
  rw [continuationAddress_eq, getLsbD_zero_add]
  cases a.getLsbD 0 <;> rfl

/-! #### The statements -/

/-- Settles O54: both commands touch the register and lastAccess alone, and a register holds its value mod 2^16. -/
theorem consoleRegisterCommands : Obligations.ConsoleRegisterCommands := by
  intro s n v
  rw [ofNat_mod_two_pow]
  exact ⟨rfl, rfl⟩

/-- Settles O55: the access check answers by the bound alone, since the size follows the parity. -/
theorem consoleMemoryCommands : Obligations.ConsoleMemoryCommands := by
  refine fun s a v => ⟨fun above => ?_, fun valid even => ?_, fun valid odd => ?_⟩
  · exact ⟨consoleMemRead_above above, consoleMemWrite_above above v⟩
  · rw [← lowByte_ofNat, ← highByte_ofNat]
    exact ⟨consoleMemRead_even valid even, consoleMemWrite_even valid even v⟩
  · exact ⟨consoleMemRead_odd valid odd, consoleMemWrite_odd valid odd v⟩

/-- Settles O56: what is read back is the written byte unpacked and packed again. -/
theorem consoleStatusCommands : Obligations.ConsoleStatusCommands := by
  intro s v
  rw [ofNat_mod_two_pow]
  refine ⟨rfl, rfl, ?_⟩
  simp only [runCommand, getFlags, reply_replies, reply_flags, setFlags_replies, setFlags_flags, Flags.pack_unpack,
    List.append_assoc, List.cons_append, List.nil_append]

/-- Settles O57: adding 1 to a register number wraps after 7. -/
theorem continuationOfRegisters : Obligations.ContinuationOfRegisters := by
  refine fun s n m => ⟨fun hlast hm => ?_, consoleContinue_of_none⟩
  have hnext : n + 1 = m := Fin.ext (by rw [hm, Fin.val_add]; rfl)
  have hcontinue : runCommand s .continuation = consoleRegRead s m := hnext ▸ consoleContinue_of_register hlast
  exact ⟨hcontinue, congrArg State.lastAccess hcontinue⟩

/-- Settles O58: the continuation is MEM_READ at an even address, whose BUS ERROR keeps lastAccess. -/
theorem continuationOfMemory : Obligations.ContinuationOfMemory := by
  intro s a next hlast hnext
  rw [← continuationAddress_eq] at hnext
  subst hnext
  have hcontinue : runCommand s .continuation = consoleMemRead s (continuationAddress a) :=
    consoleContinue_of_memory hlast
  refine ⟨getLsbD_zero_continuationAddress a, hcontinue, fun above => ?_⟩
  rw [hcontinue, consoleMemRead_above above, reply_lastAccess, hlast]

/-- Settles O60: the parser evaluated on each line. -/
theorem sampleLinesParse : Obligations.SampleLinesParse := by
  unfold Obligations.SampleLinesParse
  decide

end Sys2Proof.Machine

/-! ### Exceptions

An instruction that commits nothing can fail only where an operand is read, so its one fault is a failed access; the loop
takes a DecodeFault itself. -/

namespace Sys2Proof.Machine

/-! #### Instructions that only read -/

/-- If the computation fails, it fails with a failed access (60_exceptions.md R271, R272). -/
def AccessFaultsOnly {α : Type} (x : Except Trap α) : Prop := ∀ f, x = .error f → ∃ e, f = .access e

theorem AccessFaultsOnly.ok {α : Type} (a : α) : AccessFaultsOnly (.ok a) := nofun

theorem AccessFaultsOnly.bind {α β : Type} {x : Except Trap α} {g : α → Except Trap β} (hx : AccessFaultsOnly x)
    (hg : ∀ a, AccessFaultsOnly (g a)) : AccessFaultsOnly (x >>= g) := by
  intro f h
  rcases (except_bind_error ..).1 h with he | ⟨a, -, he⟩
  · exact hx f he
  · exact hg a f he

theorem resolve_accessFaultsOnly {sz : Size} {o : Operand} {p : Word} {asDest : Bool} {w : Work} :
    AccessFaultsOnly (resolve sz o p asDest w) :=
  fun _ => resolve_error_access

/-- With nothing to commit, the end of an ALU instruction raises no fault, whatever the destination. -/
theorem finishAlu_accessFaultsOnly {sz : Size} {wb : WriteBack} {out : Alu} {w : Work} (hout : out.result = none) :
    AccessFaultsOnly (finishAlu sz wb out w) := by
  rw [finishAlu_of_result_none hout]
  exact .ok _

theorem runInstr_log_ne_invalidDestination {body : Work → Except Trap (Nat × Work)} {s t : State}
    (hbody : AccessFaultsOnly (body (Work.ofState s))) (h : runInstr body s = .next t) (m : Mode) (r : RegNum) :
    t.faultLog ≠ s.faultLog ++ [.invalidDestination s.pc m r] := by
  rcases runInstr_cases body s with ⟨extra, w, -, he⟩ | ⟨f, hf, he⟩ <;> cases he.symm.trans h
  · simp
  · obtain ⟨e, rfl⟩ := hbody f hf
    simp [Trap.logEntry]

/-- Settles O40: InvalidDestination needs a commit. The operations of the two-operand and one-operand readers have no result
to commit, and a branch takes no fault at all. -/
theorem readersNeverRaiseInvalidDestination : Obligations.ReadersNeverRaiseInvalidDestination := by
  rintro i s t m r h (⟨a, b, hi⟩ | ⟨a, hi⟩ | ⟨d, hi⟩)
  · obtain ⟨sz, op, heq, hnone⟩ : ∃ sz op, exec i = exec2 sz op a b ∧ ∀ cfg f x y, (op cfg f x y).result = none := by
      rcases hi with rfl | rfl | rfl | rfl <;> exact ⟨_, _, rfl, fun _ _ _ _ => rfl⟩
    have h₂ : exec2 sz op a b s = .next t := heq ▸ h
    refine runInstr_log_ne_invalidDestination ?_ h₂ m r
    exact resolve_accessFaultsOnly.bind fun _ => resolve_accessFaultsOnly.bind fun _ =>
      (finishAlu_accessFaultsOnly (hnone ..)).bind fun _ => .ok _
  · obtain ⟨sz, asDest, op, heq, hnone⟩ : ∃ sz asDest op, exec i = exec1 sz asDest op a ∧
        ∀ cfg f v, (op cfg f v).result = none := by
      rcases hi with rfl | rfl | rfl <;> exact ⟨_, _, _, rfl, fun _ _ _ => rfl⟩
    have h₁ : exec1 sz asDest op a s = .next t := heq ▸ h
    refine runInstr_log_ne_invalidDestination ?_ h₁ m r
    exact resolve_accessFaultsOnly.bind fun _ => (finishAlu_accessFaultsOnly (hnone ..)).bind fun _ => .ok _
  · obtain ⟨a, -, rfl⟩ := exec_branch_next hi h
    simp

/-! #### Unknown words -/

theorem runStep_of_unknown {s : State} {W : Word} {e : DecodeError} (h : fetch s = .ok W) (hW : W ≠ 0)
    (hsteps : s.steps ≠ s.config.stepLimit) (he : decodeWord W = .error e) :
    runStep s = .next (takeFault (countStep s) (.decodeFault W)) := by
  simp only [runStep, h, if_neg hW, if_neg hsteps, he]

/-- Settles O49: the loop counts the step and takes the DecodeFault, which is logged and skips one word. -/
theorem unknownWordIsLoggedAndSkipped : Obligations.UnknownWordIsLoggedAndSkipped := by
  intro s W e hrun hfetch hW hsteps he
  rw [step_of_running hrun, runStep_of_unknown hfetch hW hsteps he]
  rfl

end Sys2Proof.Machine
